-- ==== Sys2Proof/Word.lean ====
section
/-! DEFINITION. The two units of data (spec/00_scope.md R6): a byte is 8 bits, a word is 16 bits, both unsigned. -/

namespace Sys2Proof

/-- `u8` of the spec (R6): 0 to 255. -/
abbrev Byte := BitVec 8

/-- `u16` of the spec (R6): 0 to 65535. -/
abbrev Word := BitVec 16

end Sys2Proof
end

