-- ==== Sys2Proof/Syntax.lean ====
section
/-! DEFINITION. The fifteen instructions of spec/30_encoding.md R84, one constructor a row of spec/opcode_table.json. -/

namespace Sys2Proof

/-- An instruction with its operands. `r` is the RAW register byte, 0 to 255 (R83: no masking; R87: 8 to 255 name no
register and turn the effect off). The 16-bit operand is an immediate, a memory address or a port number (R83). -/
inductive Instr where
  /-- NOP, 0x00 (R110). -/
  | nop
  /-- LOAD reg,imm, 0x01 (R120). -/
  | load (r : Byte) (imm : Word)
  /-- ADD reg,imm, 0x02 (R121). -/
  | add (r : Byte) (imm : Word)
  /-- STORE reg,addr, 0x03 (R130). -/
  | store (r : Byte) (addr : Word)
  /-- JMP addr, 0x04 (R140). -/
  | jmp (addr : Word)
  /-- JZ reg,addr, 0x05 (R141). -/
  | jz (r : Byte) (addr : Word)
  /-- AND reg,imm, 0x06 (R150). -/
  | and (r : Byte) (imm : Word)
  /-- OR reg,imm, 0x07 (R151). -/
  | or (r : Byte) (imm : Word)
  /-- XOR reg,imm, 0x08 (R152). -/
  | xor (r : Byte) (imm : Word)
  /-- NOT reg, 0x09 (R153). -/
  | not (r : Byte)
  /-- CALL addr, 0x0A (R162). -/
  | call (addr : Word)
  /-- RET, 0x0B (R163). -/
  | ret
  /-- IN reg,port, 0x0C (R182). -/
  | inp (r : Byte) (port : Word)
  /-- OUT reg,port, 0x0D (R183). -/
  | out (r : Byte) (port : Word)
  /-- HALT, 0xFF (R111). -/
  | halt
  deriving DecidableEq, Repr

end Sys2Proof
end

