-- ==== Sys2Proof/WellFormed.lean ====
section
/-! DEFINITION. Which instructions the toolchain writes. The operand types already hold every field to its width (R81: no
bit of any field is reserved), so the machine gives EVERY term of `Instr` a meaning and nothing in Machine/ consults this
file. The one check left is the assembler's: a register operand is R0 to R7 (spec/30_encoding.md R87, R98; log 24). -/

namespace Sys2Proof

/-- `valid(r)` of R11: all 8 bits are compared, none is masked. -/
def registerByteValid (r : Byte) : Bool := decide (r.toNat < 8)

/-- The assembler can emit this instruction (R98, R100): its register byte, where it has one, is 0 to 7. An instruction
that is not `wellFormed` still runs: R87 makes it a no-op. -/
def Instr.wellFormed : Instr → Bool
  | .nop => true
  | .load r _ => registerByteValid r
  | .add r _ => registerByteValid r
  | .store r _ => registerByteValid r
  | .jmp _ => true
  | .jz r _ => registerByteValid r
  | .and r _ => registerByteValid r
  | .or r _ => registerByteValid r
  | .xor r _ => registerByteValid r
  | .not r => registerByteValid r
  | .call _ => true
  | .ret => true
  | .inp r _ => registerByteValid r
  | .out r _ => registerByteValid r
  | .halt => true

end Sys2Proof
end

