-- ==== Sys2Proof/Decode.lean ====
section
/-! DEFINITION. Byte order, the opcode map, the decoder and the encoder (spec/30_encoding.md R80 to R88). The opcode map
`shapeOf` is written once; the list decoder below and the fetching decoder of Machine/Fetch.lean both read it. -/

namespace Sys2Proof

/-- `v[7:0]` (R7). -/
def loByte (v : Word) : Byte := v.setWidth 8

/-- `v[15:8]` (R7). -/
def hiByte (v : Word) : Byte := (v >>> 8).setWidth 8

/-- `hi ++ lo = hi * 256 + lo` (R7, R83): `lo` is the byte at the lower address. -/
def wordOfBytes (lo hi : Byte) : Word := hi ++ lo

/-- What stands after the opcode byte (R81): the four formats N, R, A and RI, each with the instruction it makes of its
operands. -/
inductive Shape where
  | n (i : Instr)
  | r (mk : Byte → Instr)
  | a (mk : Word → Instr)
  | ri (mk : Byte → Word → Instr)

/-- The opcode map (R84). All 8 bits of byte 0 are compared and no other byte takes part; every other value is
unrecognised (R86). -/
def shapeOf (op : Byte) : Option Shape :=
  match op.toNat with
  | 0x00 => some (.n .nop)
  | 0x01 => some (.ri .load)
  | 0x02 => some (.ri .add)
  | 0x03 => some (.ri .store)
  | 0x04 => some (.a .jmp)
  | 0x05 => some (.ri .jz)
  | 0x06 => some (.ri .and)
  | 0x07 => some (.ri .or)
  | 0x08 => some (.ri .xor)
  | 0x09 => some (.r .not)
  | 0x0A => some (.a .call)
  | 0x0B => some (.n .ret)
  | 0x0C => some (.ri .inp)
  | 0x0D => some (.ri .out)
  | 0xFF => some (.n .halt)
  | _ => none

/-- What the decoder answers on a sequence of bytes: an instruction with the bytes after it, or a rejection by name. -/
inductive DecodeResult where
  /-- The first bytes are the instruction `i` (R81, R84); `rest` follows it. -/
  | ok (i : Instr) (rest : List Byte)
  /-- Byte 0 is none of the fifteen opcodes (R86). -/
  | unknownOpcode (op : Byte)
  /-- The bytes end before the instruction does (R92). -/
  | truncated
  deriving DecidableEq, Repr

/-- The decoder, total on any bytes. The opcode alone decides the length (R85). -/
def decode : List Byte → DecodeResult
  | [] => .truncated
  | op :: bytes =>
    match shapeOf op with
    | none => .unknownOpcode op
    | some (.n i) => .ok i bytes
    | some (.r mk) =>
      match bytes with
      | r :: rest => .ok (mk r) rest
      | [] => .truncated
    | some (.a mk) =>
      match bytes with
      | lo :: hi :: rest => .ok (mk (wordOfBytes lo hi)) rest
      | _ => .truncated
    | some (.ri mk) =>
      match bytes with
      | r :: lo :: hi :: rest => .ok (mk r (wordOfBytes lo hi)) rest
      | _ => .truncated

/-- The opcode byte of an instruction (R84). -/
def Instr.opcode : Instr → Byte
  | .nop => 0x00
  | .load _ _ => 0x01
  | .add _ _ => 0x02
  | .store _ _ => 0x03
  | .jmp _ => 0x04
  | .jz _ _ => 0x05
  | .and _ _ => 0x06
  | .or _ _ => 0x07
  | .xor _ _ => 0x08
  | .not _ => 0x09
  | .call _ => 0x0A
  | .ret => 0x0B
  | .inp _ _ => 0x0C
  | .out _ _ => 0x0D
  | .halt => 0xFF

/-- The register byte of formats R and RI (R81). -/
def Instr.registerByte : Instr → Option Byte
  | .nop => none
  | .load r _ => some r
  | .add r _ => some r
  | .store r _ => some r
  | .jmp _ => none
  | .jz r _ => some r
  | .and r _ => some r
  | .or r _ => some r
  | .xor r _ => some r
  | .not r => some r
  | .call _ => none
  | .ret => none
  | .inp r _ => some r
  | .out r _ => some r
  | .halt => none

/-- The 16-bit operand of formats A and RI (R81). -/
def Instr.operandWord : Instr → Option Word
  | .nop => none
  | .load _ w => some w
  | .add _ w => some w
  | .store _ w => some w
  | .jmp w => some w
  | .jz _ w => some w
  | .and _ w => some w
  | .or _ w => some w
  | .xor _ w => some w
  | .not _ => none
  | .call w => some w
  | .ret => none
  | .inp _ w => some w
  | .out _ w => some w
  | .halt => none

/-- The encoder (R80, R100): opcode byte, optional register byte, optional operand with its low byte first. -/
def encode (i : Instr) : List Byte :=
  [i.opcode] ++ i.registerByte.toList ++
    (match i.operandWord with
     | some w => [loByte w, hiByte w]
     | none => [])

/-- The length in bytes (R84, R85). -/
def Instr.length : Instr → Nat
  | .nop => 1
  | .load _ _ => 4
  | .add _ _ => 4
  | .store _ _ => 4
  | .jmp _ => 3
  | .jz _ _ => 4
  | .and _ _ => 4
  | .or _ _ => 4
  | .xor _ _ => 4
  | .not _ => 2
  | .call _ => 3
  | .ret => 1
  | .inp _ _ => 4
  | .out _ _ => 4
  | .halt => 1

/-- The first `n` bytes of a number, least significant first: how spec/opcode_table.json numbers an instruction's bits
(bit 0 is the least significant bit of byte 0, the second byte is bits 15 to 8). -/
def bytesOfNat : Nat → Nat → List Byte
  | 0, _ => []
  | n + 1, w => BitVec.ofNat 8 w :: bytesOfNat n (w / 256)

/-- The number whose bytes, least significant first, are the given ones. -/
def natOfBytes : List Byte → Nat
  | [] => 0
  | b :: bytes => b.toNat + 256 * natOfBytes bytes

/-- The bytes of a table word in memory order: `nbits` bits of `w`, every bit above them 0, up to the longest
instruction (4 bytes, R80). -/
def tableBytes (nbits w : Nat) : List Byte := bytesOfNat 4 (w % 2 ^ nbits)

/-- The instruction the decoder reads from a table word. -/
def decodeTableWord (nbits w : Nat) : Option Instr :=
  match decode (tableBytes nbits w) with
  | .ok i _ => some i
  | .unknownOpcode _ => none
  | .truncated => none

/-- An instruction as a table word (R82's bit string, numbered as the table numbers it). -/
def Instr.tableWord (i : Instr) : Nat := natOfBytes (encode i)

end Sys2Proof
end

