-- ==== Sys2Proof/Config.lean ====
section
/-! DEFINITION. The parameters of spec/00_scope.md R5 and the one free value (the input supply, which R5 leaves OPEN). -/

namespace Sys2Proof.Config

/-- `MEM_SIZE` (R5): bytes of memory. A constant, not a parameter (D20). -/
abbrev memSize : Nat := 65536

/-- `IO_PORT` (R5): the one implemented port, a number in port space (R63). -/
abbrev ioPort : Word := 0xFF00

/-- `SP_INIT` (R5): sp at reset, the empty stack. -/
abbrev spInit : Nat := memSize

/-- `PC_INIT` (R5): pc at reset. -/
abbrev pcInit : Nat := 0

/-- `FILL` (R5; C2, D5; log 8): what a byte of memory that nothing has written reads as. -/
abbrev fill : Byte := 0x00

/-- FREE VALUE (R5, R180, D12: `input` is OPEN; log 1). The byte the environment supplies at the k-th `InByte()` of a run
when the host has listed no byte for it. It has no body: nothing can be proved about its values. -/
opaque inputByte : Nat → Byte

end Sys2Proof.Config
end

