-- ==== Sys2Proof/Machine/State.lean ====
section
/-! DEFINITION. The machine state as plain data (spec/10_state.md R20, R36), its reset value (R38), and the reasons a step
can stop outside the spec's own faults. -/

namespace Sys2Proof.Machine

/-- Memory (R35, R51): the bytes that differ from `Config.fill`, as (address, byte) pairs with strictly rising addresses
below `Config.memSize`. An address that is not listed reads as `Config.fill`. -/
abbrev Memory := List Host.Cell

/-- The canonical form above every address `lo`. -/
def Memory.wfFrom : Nat → Memory → Bool
  | _, [] => true
  | lo, (a, b) :: rest =>
    decide (lo ≤ a) && decide (a < Config.memSize) && decide (b ≠ Config.fill) && Memory.wfFrom (a + 1) rest

/-- The canonical form: addresses strictly rising and in bounds, no entry equal to the fill. -/
def Memory.wf (m : Memory) : Bool := Memory.wfFrom 0 m

/-- The fault record of the spec (60_exceptions.md R201; D8; log 11): one of six kinds with its information. It is STATE:
`raise` writes it and halts the machine (R203), and the step answers that state. -/
inductive FaultRecord where
  /-- A fetch with `pc` out of bounds; the `pc` that could not be fetched from (R58, R59). -/
  | pcOutOfBounds (pc : Nat)
  /-- An opcode byte that is none of the fifteen, and the address it was fetched from (R112). -/
  | unknownOpcode (op : Byte) (addr : Nat)
  /-- STORE with no room for its second byte (R130). -/
  | storeOutOfBounds (addr : Word)
  /-- A jump or call target outside memory; unreachable with 65536 bytes (R142, R213). -/
  | jumpOutOfBounds (op : Byte) (addr : Word)
  /-- A push with `sp < 2` (R160). -/
  | stackOverflow (sp : Nat)
  /-- A pop with `sp > 65534` (R161). -/
  | stackUnderflow (sp : Nat)
  deriving DecidableEq, Repr

/-- The whole state. -/
structure State where
  /-- Program counter, 0 to 65536 (R24, R27; D2; log 6). -/
  pc : Nat
  /-- General registers R0 to R7, 16 bits each (R21; D4; log 7). -/
  regs : Vector Word 8
  /-- Stack pointer, even, 0 to 65536 (R29, R31; D3; log 6). -/
  sp : Nat
  /-- The 65536 bytes of memory (R35). -/
  mem : Memory
  /-- Halt flag (R32). -/
  halted : Bool
  /-- Fault record (R33). -/
  fault : Option FaultRecord
  /-- MODEL'S OWN (R36, D12; log 1): the bytes the host supplied to this run and IN has not consumed, oldest first. -/
  input : List Byte
  /-- MODEL'S OWN (R180; log 1): how many bytes IN has consumed; the argument of the free value once `input` is empty. -/
  inputCount : Nat
  /-- The output trace, oldest first (R36, R181; log 3). -/
  output : List Byte
  deriving DecidableEq, Repr

/-- Reasons for the host's `fault` outcome. The spec's own faults are NOT here: they are next states (log 4). -/
inductive Fault where
  /-- Raised by `push16` (CALL) alone, when `sp > 65536`: the word would lie outside memory, an access the spec says is
  never made (R53) from a value of `sp` it says no state has (R31). SAFE: the machine stops where the spec says nothing
  (log 5). -/
  | pushOutsideMemory
  deriving DecidableEq, Repr

/-- Reasons for the host's `refused` outcome. -/
inductive Refusal where
  /-- Raised by an arm of `exec` whose instruction has no meaning yet. SAFE. No arm is in that state. -/
  | notModelled (mnemonic : String)
  deriving DecidableEq, Repr

/-- What one instruction or one step answers. -/
abbrev Answer := Host.Outcome State Fault Refusal

/-- The machine right after reset (R38). `input` and `inputCount` are the model's own (DESIGN CHOICE, log 2). -/
def State.reset : State where
  pc := Config.pcInit
  regs := Vector.replicate 8 0
  sp := Config.spInit
  mem := []
  halted := false
  fault := none
  input := []
  inputCount := 0
  output := []

end Sys2Proof.Machine
end

