-- ==== Sys2Proof/Machine/Ops.lean ====
section
/-! DEFINITION. The named operations over memory, registers, the stack and the port (spec/00_scope.md R12), and raising a
fault, the machine's one exceptional event (spec/60_exceptions.md R203). There is no return from a fault (R207). -/

namespace Sys2Proof.Machine

/-! ### Memory (20_memory.md R56, R57) -/

/-- `MemRead(a, 1)` (R56). Every caller checks the bounds first (R53). -/
def Memory.get : Memory → Nat → Byte
  | [], _ => Config.fill
  | (k, v) :: rest, a => if a = k then v else Memory.get rest a

/-- `MemRead(a, 2)` (R56): little-endian. -/
def Memory.get16 (m : Memory) (a : Nat) : Word := wordOfBytes (m.get a) (m.get (a + 1))

/-- `MemWrite(a, 1, b)` (R57), keeping the canonical form. -/
def Memory.set : Memory → Nat → Byte → Memory
  | [], a, b => if b = Config.fill then [] else [(a, b)]
  | (k, v) :: rest, a, b =>
    if a < k then (if b = Config.fill then (k, v) :: rest else (a, b) :: (k, v) :: rest)
    else if a = k then (if b = Config.fill then rest else (a, b) :: rest)
    else (k, v) :: Memory.set rest a b

/-- `MemWrite(a, 2, v)` (R57): `v[7:0]` at `a`, `v[15:8]` at `a + 1`. -/
def Memory.set16 (m : Memory) (a : Nat) (v : Word) : Memory := (m.set a (loByte v)).set (a + 1) (hiByte v)

/-- The `n` bytes from address `a` upward. -/
def Memory.bytes (m : Memory) : Nat → Nat → List Byte
  | _, 0 => []
  | a, n + 1 => m.get a :: Memory.bytes m (a + 1) n

/-- Writes a sequence of bytes from address `a` upward; a byte that would lie outside memory is not written. -/
def Memory.setBytes (m : Memory) : Nat → List Byte → Memory
  | _, [] => m
  | a, b :: rest => Memory.setBytes (if a < Config.memSize then m.set a b else m) (a + 1) rest

/-! ### Registers and the program counter (10_state.md R21, R25) -/

/-- `x[i]` (R10). -/
def State.reg (s : State) (i : Fin 8) : Word := s.regs[i.val]

/-- `x[i] <- v` (R10). No register is hardwired (R21). -/
def State.setReg (s : State) (i : Fin 8) (v : Word) : State := { s with regs := s.regs.set i.val v }

/-- `pc <- target` (R25). -/
def State.setPc (s : State) (target : Nat) : State := { s with pc := target }

/-- `MemWrite(a, 2, v)` on the state. -/
def State.write16 (s : State) (a : Nat) (v : Word) : State := { s with mem := s.mem.set16 a v }

/-! ### Faults (60_exceptions.md R203) -/

/-- `raise Fault(kind, info)` (R203): records the fault and halts. Nothing is saved, no control is transferred, and `pc`
keeps the value the fetches gave it (R204; D7; log 10). -/
def State.raise (s : State) (f : FaultRecord) : State := { s with fault := some f, halted := true }

/-- What an operation answers inside a step: a value and the state after it, the state in which a `raise` ended the
instruction (R13), or a stop outside the spec's faults. -/
inductive Result (α : Type) where
  | value (v : α) (s : State)
  | raised (s : State)
  | stop (f : Fault)

/-- Goes on with the next operation unless the instruction has ended (R13). -/
def Result.bind {α β : Type} (x : Result α) (k : α → State → Result β) : Result β :=
  match x with
  | .value v s => k v s
  | .raised s => .raised s
  | .stop f => .stop f

/-- Ends a sequence of operations: a raised fault is the next state (log 4). -/
def Result.andThen {α : Type} (x : Result α) (k : α → State → Answer) : Answer :=
  match x with
  | .value v s => k v s
  | .raised s => .next s
  | .stop f => .fault f

/-! ### Instruction fetch (20_memory.md R58, R59; D6; log 9) -/

/-- `Fetch8()` (R58). -/
def fetch8 (s : State) : Result Byte :=
  if Config.memSize ≤ s.pc then .raised (s.raise (.pcOutOfBounds s.pc))
  else .value (s.mem.get s.pc) (s.setPc (s.pc + 1))

/-- `Fetch16()` (R59): one two-byte access, so nothing is read and `pc` stays when it does not fit. -/
def fetch16 (s : State) : Result Word :=
  if Config.memSize - 2 < s.pc then .raised (s.raise (.pcOutOfBounds s.pc))
  else .value (s.mem.get16 s.pc) (s.setPc (s.pc + 2))

/-! ### Stack (45_call_ret.md R160, R161) -/

/-- `Push16(v)` (R160). On overflow neither memory nor `sp` changes. The third case is `sp > 65536`, which the spec says
no state has (R31; log 5). -/
def push16 (v : Word) (s : State) : Result Unit :=
  if s.sp < 2 then .raised (s.raise (.stackOverflow s.sp))
  else if Config.memSize < s.sp then .stop .pushOutsideMemory
  else .value () ({ s with sp := s.sp - 2 }.write16 (s.sp - 2) v)

/-- `Pop16()` (R161). On underflow nothing is read and `sp` does not change; the bytes popped stay in memory. -/
def pop16 (s : State) : Result Word :=
  if Config.memSize - 2 < s.sp then .raised (s.raise (.stackUnderflow s.sp))
  else .value (s.mem.get16 s.sp) { s with sp := s.sp + 2 }

/-! ### Jump target (43_jump.md R142) -/

/-- The shared transfer of JMP, JZ and CALL (R142): the target is checked as a one-byte address, then written to `pc`.
With 65536 bytes the check never fails (R213; D20; log 26). -/
def jumpTo (op : Byte) (addr : Word) (s : State) : Answer :=
  if Config.memSize ≤ addr.toNat then .next (s.raise (.jumpOutOfBounds op addr))
  else .next (s.setPc addr.toNat)

/-! ### Port (46_io.md R180, R181) -/

/-- The byte the next `InByte()` returns (R180): the next byte the host supplied, else the free value (log 1). -/
def State.nextInput (s : State) : Byte :=
  match s.input with
  | b :: _ => b
  | [] => Config.inputByte s.inputCount

/-- `InByte()` consumes that byte (R180). -/
def State.consumeInput (s : State) : State :=
  { s with input := s.input.tail, inputCount := s.inputCount + 1 }

/-- `OutByte(b)` (R181): appends to the end of the trace. -/
def State.emit (s : State) (b : Byte) : State := { s with output := s.output ++ [b] }

end Sys2Proof.Machine
end

