-- ==== Sys2Proof/Machine/Operands.lean ====
section
/-! DEFINITION. The operand forms. There are two: a raw register byte that names a register only when it is 0 to 7
(spec/00_scope.md R11, 30_encoding.md R83, R87), and a 16-bit literal used as it stands (R83), which needs no operation. -/

namespace Sys2Proof.Machine

/-- `valid(r)` with the register it names (R11): `none` for 8 to 255, with no masking. -/
def regIndex (r : Byte) : Option (Fin 8) :=
  if h : r.toNat < 8 then some ⟨r.toNat, h⟩ else none

/-- `if valid(r) then body`: an invalid register byte turns the whole effect off (R87; D11; log 14). -/
def whenValid (r : Byte) (s : State) (body : Fin 8 → Answer) : Answer :=
  match regIndex r with
  | some i => body i
  | none => .next s

/-- `if valid(r) then x[r] <- f(x[r])`: the shape of LOAD, ADD, AND, OR, XOR and NOT (R22). -/
def updateReg (r : Byte) (f : Word → Word) (s : State) : Answer :=
  whenValid r s fun i => .next (s.setReg i (f (s.reg i)))

end Sys2Proof.Machine
end

