-- ==== Sys2Proof/Machine/Flags.lean ====
section
/-! DEFINITION. The machine has no status flags, no condition codes and no predicates (spec/10_state.md R34), so no
instruction computes one. The one condition an instruction tests is JZ's, on the register's own value. -/

namespace Sys2Proof.Machine

/-- The condition of JZ (R34, R141): all 16 bits are compared with zero. -/
def isZero (v : Word) : Bool := v == 0

end Sys2Proof.Machine
end

