-- ==== Sys2Proof/Machine/CallRet.lean ====
section
/-! DEFINITION. CALL and RET (spec/45_call_ret.md). -/

namespace Sys2Proof.Machine

/-- CALL addr (R162): pushes `pc mod 2^16` (the post-fetch value; D10; log 13), then transfers. -/
def execCall (addr : Word) (s : State) : Answer :=
  (push16 (BitVec.ofNat 16 s.pc) s).andThen fun _ t => jumpTo 0x0A addr t

/-- RET (R163): the popped word is the new `pc`; on underflow `pc` is not written (D7; log 10). -/
def execRet (s : State) : Answer := (pop16 s).andThen fun v t => .next (t.setPc v.toNat)

end Sys2Proof.Machine
end

