-- ==== Sys2Proof/Machine/Io.lean ====
section
/-! DEFINITION. IN and OUT (spec/46_io.md). The port number is compared with 0xFF00 on all 16 bits and never indexes
memory (R63, R184). -/

namespace Sys2Proof.Machine

/-- IN reg,port (R182): the byte is zero-extended into the whole register (D12; log 15). -/
def execIn (r : Byte) (port : Word) (s : State) : Answer :=
  if port = Config.ioPort then
    whenValid r s fun i => .next (s.consumeInput.setReg i (s.nextInput.setWidth 16))
  else .next s

/-- OUT reg,port (R183): emits the low byte. -/
def execOut (r : Byte) (port : Word) (s : State) : Answer :=
  if port = Config.ioPort then
    whenValid r s fun i => .next (s.emit (loByte (s.reg i)))
  else .next s

end Sys2Proof.Machine
end

