-- ==== Sys2Proof/Machine/Jump.lean ====
section
/-! DEFINITION. JMP and JZ (spec/43_jump.md). -/

namespace Sys2Proof.Machine

/-- JMP addr (R140). -/
def execJmp (addr : Word) (s : State) : Answer := jumpTo 0x04 addr s

/-- JZ reg,addr (R141): the target is checked only when the jump is taken (D13; log 16). -/
def execJz (r : Byte) (addr : Word) (s : State) : Answer :=
  whenValid r s fun i => if isZero (s.reg i) then jumpTo 0x05 addr s else .next s

end Sys2Proof.Machine
end

