-- ==== Sys2Proof/Machine/LoadAdd.lean ====
section
/-! DEFINITION. LOAD and ADD (spec/41_load_add.md). -/

namespace Sys2Proof.Machine

/-- LOAD reg,imm (R120): a load of the immediate; memory is not read. -/
def execLoad (r : Byte) (imm : Word) (s : State) : Answer := updateReg r (fun _ => imm) s

/-- The sum reduced modulo 2^16 (R121, R122). -/
def addWord (x y : Word) : Word := BitVec.ofNat 16 (x.toNat + y.toNat)

/-- ADD reg,imm (R121). -/
def execAdd (r : Byte) (imm : Word) (s : State) : Answer := updateReg r (fun x => addWord x imm) s

end Sys2Proof.Machine
end

