-- ==== Sys2Proof/Machine/Logic.lean ====
section
/-! DEFINITION. AND, OR, XOR and NOT (spec/44_logic.md). -/

namespace Sys2Proof.Machine

/-- AND reg,imm (R150). -/
def execAnd (r : Byte) (imm : Word) (s : State) : Answer := updateReg r (fun x => x &&& imm) s

/-- OR reg,imm (R151). -/
def execOr (r : Byte) (imm : Word) (s : State) : Answer := updateReg r (fun x => x ||| imm) s

/-- XOR reg,imm (R152). -/
def execXor (r : Byte) (imm : Word) (s : State) : Answer := updateReg r (fun x => x ^^^ imm) s

/-- NOT reg (R153): `x ^ 0xFFFF`. -/
def execNot (r : Byte) (s : State) : Answer := updateReg r (fun x => x ^^^ 0xFFFF) s

end Sys2Proof.Machine
end

