-- ==== Sys2Proof/Machine/Store.lean ====
section
/-! DEFINITION. STORE (spec/42_store.md). -/

namespace Sys2Proof.Machine

/-- STORE reg,addr (R130): both bytes or neither; the bound is tested only for a valid register (R205; D11, D18). -/
def execStore (r : Byte) (addr : Word) (s : State) : Answer :=
  whenValid r s fun i =>
    if Config.memSize - 2 < addr.toNat then .next (s.raise (.storeOutOfBounds addr))
    else .next (s.write16 addr.toNat (s.reg i))

end Sys2Proof.Machine
end

