-- ==== Sys2Proof/Machine/System.lean ====
section
/-! DEFINITION. NOP and HALT (spec/40_system.md). Every meaning acts on the state whose `pc` is the post-fetch value (R89). -/

namespace Sys2Proof.Machine

/-- NOP (R110): no effect beyond the fetch. -/
def execNop (s : State) : Answer := .next s

/-- HALT (R111): `halted <- true`; `fault` stays as it is. -/
def execHalt (s : State) : Answer := .next { s with halted := true }

end Sys2Proof.Machine
end

