-- ==== Sys2Proof/Machine/Dispatch.lean ====
section
/-! DEFINITION. One arm per instruction (spec/30_encoding.md R89). -/

namespace Sys2Proof.Machine

def exec (i : Instr) (s : State) : Host.Outcome State Fault Refusal :=
  match i with
  | .nop => Sys2Proof.Machine.execNop s
  | .load r imm => Sys2Proof.Machine.execLoad r imm s
  | .add r imm => Sys2Proof.Machine.execAdd r imm s
  | .store r addr => Sys2Proof.Machine.execStore r addr s
  | .jmp addr => Sys2Proof.Machine.execJmp addr s
  | .jz r addr => Sys2Proof.Machine.execJz r addr s
  | .and r imm => Sys2Proof.Machine.execAnd r imm s
  | .or r imm => Sys2Proof.Machine.execOr r imm s
  | .xor r imm => Sys2Proof.Machine.execXor r imm s
  | .not r => Sys2Proof.Machine.execNot r s
  | .call addr => Sys2Proof.Machine.execCall addr s
  | .ret => Sys2Proof.Machine.execRet s
  | .inp r port => Sys2Proof.Machine.execIn r port s
  | .out r port => Sys2Proof.Machine.execOut r port s
  | .halt => Sys2Proof.Machine.execHalt s

end Sys2Proof.Machine
end

