-- ==== Sys2Proof/Machine/Fetch.lean ====
section
/-! DEFINITION. Fetching and decoding one instruction from memory, in the order of spec/30_encoding.md R89 and
spec/60_exceptions.md R205. -/

namespace Sys2Proof.Machine

/-- The fetches of one step (R89): opcode, then the operands its format has; the state after them holds the post-fetch
`pc`. An unrecognised opcode raises at once and none of its operands is fetched (R112). -/
def fetchInstr (s : State) : Result Instr :=
  (fetch8 s).bind fun op s1 =>
    match shapeOf op with
    | none => .raised (s1.raise (.unknownOpcode op (s1.pc - 1)))
    | some (.n i) => .value i s1
    | some (.r mk) => (fetch8 s1).bind fun r s2 => .value (mk r) s2
    | some (.a mk) => (fetch16 s1).bind fun w s2 => .value (mk w) s2
    | some (.ri mk) => (fetch8 s1).bind fun r s2 => (fetch16 s2).bind fun w s3 => .value (mk r w) s3

/-- The bytes of memory from `pc` up to the longest instruction (4 bytes), as far as memory reaches. -/
def State.window (s : State) : List Byte := s.mem.bytes s.pc (min 4 (Config.memSize - s.pc))

end Sys2Proof.Machine
end

