-- ==== Sys2Proof/Machine/Step.lean ====
section
/-! DEFINITION. One step of the machine (spec/30_encoding.md R89, R90), and the state in which a given instruction is the
next one fetched. -/

namespace Sys2Proof.Machine

/-- `Step()` (R89): the identity on a halted machine (R90; D17; log 20), else one instruction. -/
def step (s : State) : Host.Outcome State Fault Refusal :=
  if s.halted then .next s else (fetchInstr s).andThen exec

/-- `s` with the instruction of a table word stored at `pc`, where `step` fetches, and the machine RUNNING with no fault
recorded, as the fetch needs (log 23). It stands for the load of a program from outside (R232). -/
def State.withFetchWord (s : State) (nbits w : Nat) : State :=
  { s with mem := s.mem.setBytes s.pc (tableBytes nbits w), halted := false, fault := none }

end Sys2Proof.Machine
end

