-- ==== Sys2Proof/Machine/Assembler.lean ====
section
/-! DEFINITION. The documented formats of the assembler (spec/30_encoding.md R96 to R102). It is a tool outside the core
(00_scope.md R4): no state, no step and no meaning depends on this file. A line form the spec leaves open (D22, N14) is
answered by name, never given bytes (log 25). -/

namespace Sys2Proof.Assembler

/-- The four causes of an `EncodeError` (R101). -/
inductive ErrorKind where
  | unknownMnemonic
  | wrongOperandCount
  | invalidRegister
  | invalidImmediate
  deriving DecidableEq, Repr

/-- What reading a token or a line answers. -/
inductive Answer (α : Type) where
  | ok (v : α)
  | error (k : ErrorKind)
  /-- A lexical form the spec leaves open (D22). -/
  | openForm
  deriving DecidableEq, Repr

/-- Goes on unless an error or an open form ended the line. -/
def Answer.bind {α β : Type} (x : Answer α) (k : α → Answer β) : Answer β :=
  match x with
  | .ok v => k v
  | .error e => .error e
  | .openForm => .openForm

/-- The value of a base-16 digit, either letter case. -/
def hexDigit (c : Char) : Option Nat :=
  if '0'.toNat ≤ c.toNat ∧ c.toNat ≤ '9'.toNat then some (c.toNat - '0'.toNat)
  else if 'A'.toNat ≤ c.toNat ∧ c.toNat ≤ 'F'.toNat then some (c.toNat - 'A'.toNat + 10)
  else if 'a'.toNat ≤ c.toNat ∧ c.toNat ≤ 'f'.toNat then some (c.toNat - 'a'.toNat + 10)
  else none

/-- The value of a base-10 digit. -/
def decDigit (c : Char) : Option Nat :=
  if '0'.toNat ≤ c.toNat ∧ c.toNat ≤ '9'.toNat then some (c.toNat - '0'.toNat) else none

/-- The value of a base-8 digit. -/
def octDigit (c : Char) : Option Nat :=
  if '0'.toNat ≤ c.toNat ∧ c.toNat ≤ '7'.toNat then some (c.toNat - '0'.toNat) else none

/-- Digits most significant first, after the value `acc` already read. -/
def digitsFrom (base : Nat) (digit : Char → Option Nat) : Nat → List Char → Option Nat
  | acc, [] => some acc
  | acc, c :: cs =>
    match digit c with
    | some d => digitsFrom base digit (acc * base + d) cs
    | none => none

/-- A value that must fit in 16 bits (R99). -/
def fitWord (v : Option Nat) : Answer Word :=
  match v with
  | some n => if n < 65536 then .ok (BitVec.ofNat 16 n) else .error .invalidImmediate
  | none => .error .invalidImmediate

/-- A form the spec leaves open, given what its possible readings answer: open when one of them accepts it, and invalid when
every one of them refuses it (R99). -/
def openUnlessInvalid : List (Answer Word) → Answer Word
  | [] => .error .invalidImmediate
  | .ok _ :: _ => .openForm
  | .openForm :: _ => .openForm
  | .error _ :: rest => openUnlessInvalid rest

/-- A register operand token (R98): the letter R, either case, and one digit 0 to 7. -/
def registerToken : List Char → Answer Byte
  | [c, d] =>
    if c = 'R' ∨ c = 'r' then
      match decDigit d with
      | some n => if n < 8 then .ok (BitVec.ofNat 8 n) else .error .invalidRegister
      | none => .error .invalidRegister
    else .error .invalidRegister
  | _ => .error .invalidRegister

/-- An immediate, address or port token (R99): base 10, or base 16 after `0x`, at most 65535; every other token is invalid.
Whether `0X` is accepted and whether a leading zero means base 8 is open (N14; log 25), so a token that only such a reading
accepts, or whose value hangs on it, is `openForm`. -/
def immediateToken : List Char → Answer Word
  | [] => .error .invalidImmediate
  | ['0'] => .ok 0
  | '0' :: 'x' :: [] => .error .invalidImmediate
  | '0' :: 'x' :: ds => fitWord (digitsFrom 16 hexDigit 0 ds)
  | '0' :: 'X' :: [] => .error .invalidImmediate
  | '0' :: 'X' :: ds => openUnlessInvalid [fitWord (digitsFrom 16 hexDigit 0 ds)]
  | '0' :: ds => openUnlessInvalid [fitWord (digitsFrom 10 decDigit 0 ds), fitWord (digitsFrom 8 octDigit 0 ds)]
  | ds => fitWord (digitsFrom 10 decDigit 0 ds)

/-- One letter in upper case; other characters as they are (R96: the mnemonic's case does not matter). -/
def upper (c : Char) : Char :=
  if 'a'.toNat ≤ c.toNat ∧ c.toNat ≤ 'z'.toNat then Char.ofNat (c.toNat - 32) else c

/-- The fifteen mnemonics in upper case, each with the shape that gives its operand count and order (R97). There are no
pseudo-instructions (R96). -/
def mnemonicShape (m : List Char) : Option Shape :=
  if m = ['N', 'O', 'P'] then some (.n .nop)
  else if m = ['L', 'O', 'A', 'D'] then some (.ri .load)
  else if m = ['A', 'D', 'D'] then some (.ri .add)
  else if m = ['S', 'T', 'O', 'R', 'E'] then some (.ri .store)
  else if m = ['J', 'M', 'P'] then some (.a .jmp)
  else if m = ['J', 'Z'] then some (.ri .jz)
  else if m = ['A', 'N', 'D'] then some (.ri .and)
  else if m = ['O', 'R'] then some (.ri .or)
  else if m = ['X', 'O', 'R'] then some (.ri .xor)
  else if m = ['N', 'O', 'T'] then some (.r .not)
  else if m = ['C', 'A', 'L', 'L'] then some (.a .call)
  else if m = ['R', 'E', 'T'] then some (.n .ret)
  else if m = ['I', 'N'] then some (.ri .inp)
  else if m = ['O', 'U', 'T'] then some (.ri .out)
  else if m = ['H', 'A', 'L', 'T'] then some (.n .halt)
  else none

/-- The instruction a shape makes of its operand tokens (R97: the register comes first). Which error is reported when several
hold is the model's choice (DESIGN CHOICE, log 25): the operand count, then the register, then the immediate. -/
def operands (sh : Shape) (tokens : List (List Char)) : Answer Instr :=
  match sh, tokens with
  | .n i, [] => .ok i
  | .r mk, [t] => (registerToken t).bind fun r => .ok (mk r)
  | .a mk, [t] => (immediateToken t).bind fun w => .ok (mk w)
  | .ri mk, [t, u] => (registerToken t).bind fun r => (immediateToken u).bind fun w => .ok (mk r w)
  | _, _ => .error .wrongOperandCount

/-- Splits a list of characters at every `sep`. An empty piece is a piece: between the
commas of an operand list it counts as an operand, a token no rule accepts (DESIGN CHOICE, log 25). -/
def splitAt (sep : Char) : List Char → List (List Char)
  | [] => [[]]
  | c :: cs =>
    if c = sep then [] :: splitAt sep cs
    else
      match splitAt sep cs with
      | w :: ws => (c :: w) :: ws
      | [] => [[c]]

/-- A space or a tab; every other character is an ordinary one (DESIGN CHOICE, log 25). -/
def blank (c : Char) : Bool := c == ' ' || c == '\t'

/-- The line without its comment (R96: `;` introduces one) and without the blanks at its end. The model's choices, which N14
leaves open (DESIGN CHOICE, log 25): the first `;` begins the comment wherever it stands, inside a token too; blanks at the end
are dropped with or without a comment after them, so a line of blanks only is a blank line. -/
def lineText (line : List Char) : List Char :=
  ((line.takeWhile (· ≠ ';')).reverse.dropWhile blank).reverse

/-- One instruction's text: the mnemonic, and after one space the operands with commas between them. Any other blank is an
open form (D22, N14), whatever else the line holds; an unknown mnemonic is reported before any error of the operands
(DESIGN CHOICE, log 25). -/
def instruction (text : List Char) : Answer Instr :=
  let mnemonic := text.takeWhile (fun c => !blank c)
  let rest := text.dropWhile (fun c => !blank c)
  if mnemonic = [] then .openForm
  else
    match rest with
    | [] =>
      match mnemonicShape (mnemonic.map upper) with
      | some sh => operands sh []
      | none => .error .unknownMnemonic
    | c :: ops =>
      if c ≠ ' ' ∨ ops.any blank then .openForm
      else
        match mnemonicShape (mnemonic.map upper) with
        | some sh => operands sh (splitAt ',' ops)
        | none => .error .unknownMnemonic

/-- The bytes of one line (R96, R100): a blank line or a comment gives none. A line has no greatest length (DESIGN CHOICE, log
25; N14). -/
def line (l : List Char) : Answer (List Byte) :=
  if lineText l = [] then .ok []
  else (instruction (lineText l)).bind fun i => .ok (encode i)

/-- What assembling a source answers. -/
inductive Assembly where
  | image (bytes : List Byte)
  /-- An `EncodeError` identifying the line, the first being line 1 (R101); the whole assembly has failed. -/
  | encodeError (lineNumber : Nat) (k : ErrorKind)
  /-- The line has a form the spec leaves open (D22). -/
  | openForm (lineNumber : Nat)
  deriving DecidableEq, Repr

/-- Assembles lines from line number `n` on, after the bytes `done` of the lines before (R100: the write cursor is the
number of bytes emitted). The first line that is not accepted decides the answer, so an open form hides a later error, and the
number of bytes has no limit (DESIGN CHOICE, log 25). -/
def assembleFrom : Nat → List Byte → List (List Char) → Assembly
  | _, done, [] => .image done
  | n, done, l :: ls =>
    match line l with
    | .ok bytes => assembleFrom (n + 1) (done ++ bytes) ls
    | .error k => .encodeError n k
    | .openForm => .openForm n

/-- Assembles a source text, one instruction a line (R96), to an image for address 0 (R100). A line ends at a newline alone; a
carriage return is an ordinary character of its line (DESIGN CHOICE, log 25). -/
def assemble (source : List Char) : Assembly := assembleFrom 1 [] (splitAt '\n' source)

end Sys2Proof.Assembler
end

