-- ==== Sys2Proof/Machine/Lifecycle.lean ====
section
/-! DEFINITION. The host's operations on the core (spec/70_reset_and_hazards.md R240): reset, load, run, and the order in
which they may be used (R236). The order is the host's own state, `Driver`, beside the core's `State`. -/

namespace Sys2Proof.Machine

/-- `Reset()` (R230), from any state. The input supply is a parameter of the next run and is not reset by the core
(D16; log 19). -/
def State.resetOp (s : State) : State := { State.reset with input := s.input, inputCount := s.inputCount }

/-- What `Load` answers (R232, R233). -/
inductive LoadResult where
  | ok (s : State)
  /-- The image is longer than memory; nothing was written (R233). It is no fault of the core (R209). -/
  | loadError
  deriving DecidableEq, Repr

/-- `Load(image)` (R232): the image's bytes from address 0 upward, and nothing else. -/
def load (image : List Byte) (s : State) : LoadResult :=
  if Config.memSize < image.length then .loadError
  else .ok { s with mem := s.mem.setBytes 0 image }

/-- What a bounded run answers. A run has no step limit (R91); the bound is the model's (D24; log 22). -/
inductive RunResult where
  | halted (s : State)
  /-- Neither halted nor faulted: the bound was reached. -/
  | outOfFuel (s : State)
  | stopped (f : Fault)
  | refused (r : Refusal)
  deriving DecidableEq, Repr

/-- The run operation (R91) for at most `n` steps: `Step()` until `halted`. -/
def run : Nat → State → RunResult
  | 0, s => if s.halted then .halted s else .outOfFuel s
  | n + 1, s =>
    if s.halted then .halted s
    else
      match step s with
      | .next t => run n t
      | .fault f => .stopped f
      | .refused r => .refused r

/-- Where the host stands in the sequence reset, load, run (R236; D15; log 18). -/
inductive Phase where
  /-- No reset has been done. -/
  | powerOn
  /-- After reset. -/
  | ready
  /-- After a load that succeeded. -/
  | loaded
  /-- After a load that answered `LoadError`. -/
  | loadFailed
  /-- A run has begun and the machine has not halted. -/
  | running
  /-- The run has ended: the machine is halted. -/
  | ended
  deriving DecidableEq, Repr

/-- The core with the host's phase. -/
structure Driver where
  phase : Phase
  core : State
  deriving DecidableEq, Repr

/-- Host operations outside the sequence, refused by name (R236, U12; D15). SAFE. -/
inductive OutOfSequence where
  | loadWithoutReset
  | secondLoad
  | loadAfterSteps
  | runWithoutLoad
  | runAfterLoadError
  | runAfterEnd
  | runAlreadyBegun
  | stepOutsideRun
  | resetDuringRun
  deriving DecidableEq, Repr

/-- What the host gets back. -/
inductive DriverAnswer where
  | done (d : Driver)
  | loadError (d : Driver)
  | refused (why : OutOfSequence)
  | stopped (f : Fault)
  | notRun (r : Refusal)
  deriving DecidableEq, Repr

/-- reset: always defined but during a run (R236, U12). -/
def Driver.reset (d : Driver) : DriverAnswer :=
  match d.phase with
  | .running => .refused .resetDuringRun
  | .powerOn => .done ⟨.ready, d.core.resetOp⟩
  | .ready => .done ⟨.ready, d.core.resetOp⟩
  | .loaded => .done ⟨.ready, d.core.resetOp⟩
  | .loadFailed => .done ⟨.ready, d.core.resetOp⟩
  | .ended => .done ⟨.ready, d.core.resetOp⟩

/-- load: only in the reset state before the first step (R236). -/
def Driver.load (image : List Byte) (d : Driver) : DriverAnswer :=
  match d.phase with
  | .powerOn => .refused .loadWithoutReset
  | .ready =>
    match Machine.load image d.core with
    | .ok s => .done ⟨.loaded, s⟩
    | .loadError => .loadError ⟨.loadFailed, d.core⟩
  | .loaded => .refused .secondLoad
  | .loadFailed => .refused .secondLoad
  | .running => .refused .loadAfterSteps
  | .ended => .refused .loadAfterSteps

/-- The beginning of run: the host supplies the bytes of `input` (R240, R180). `inputCount` goes on from where it stands, so
that two runs need not see the same free bytes (log 1). -/
def Driver.begin (supply : List Byte) (d : Driver) : DriverAnswer :=
  match d.phase with
  | .powerOn => .refused .runWithoutLoad
  | .ready => .refused .runWithoutLoad
  | .loaded => .done ⟨.running, { d.core with input := supply }⟩
  | .loadFailed => .refused .runAfterLoadError
  | .running => .refused .runAlreadyBegun
  | .ended => .refused .runAfterEnd

/-- One `Step()` of a run (R39, R211: the host can run the machine one step at a time). -/
def Driver.step (d : Driver) : DriverAnswer :=
  match d.phase with
  | .running =>
    match Machine.step d.core with
    | .next t => .done ⟨if t.halted then .ended else .running, t⟩
    | .fault f => .stopped f
    | .refused r => .notRun r
  | .powerOn => .refused .stepOutsideRun
  | .ready => .refused .stepOutsideRun
  | .loaded => .refused .stepOutsideRun
  | .loadFailed => .refused .stepOutsideRun
  | .ended => .refused .stepOutsideRun

end Sys2Proof.Machine
end

