-- ==== Sys2Proof/Safety.lean ====
section
/-! DEFINITION. What a legal state is, and the words in which the statements speak of what an instruction leaves
unchanged and of how it is fetched. -/

namespace Sys2Proof.Machine

/-! ### Frames: each part of the state through its own read -/

/-- Every general register reads as before. -/
def sameRegs (s t : State) : Prop := ∀ i : Fin 8, t.reg i = s.reg i

/-- Every general register but the one `r` names reads as before; all of them when `r` names none. -/
def sameRegsBut (r : Byte) (s t : State) : Prop := ∀ i : Fin 8, i.val ≠ r.toNat → t.reg i = s.reg i

/-- The register `r` names, where it names one, holds `v` of its old value; every other register reads as before. -/
def onlyRegChanged (r : Byte) (v : Word → Word) (s t : State) : Prop :=
  (∀ i : Fin 8, i.val = r.toNat → t.reg i = v (s.reg i)) ∧ sameRegsBut r s t

/-- Every byte of memory reads as before. -/
def sameMem (s t : State) : Prop := ∀ a : Nat, t.mem.get a = s.mem.get a

/-- Every byte of memory outside the `n` bytes from `a` reads as before. -/
def sameMemOutside (a n : Nat) (s t : State) : Prop :=
  ∀ b : Nat, b < a ∨ a + n ≤ b → t.mem.get b = s.mem.get b

/-- The halt flag and the fault record are as before. -/
def sameStatus (s t : State) : Prop := t.halted = s.halted ∧ t.fault = s.fault

/-- No input is consumed. -/
def sameInput (s t : State) : Prop := t.input = s.input ∧ t.inputCount = s.inputCount

/-- No input is consumed and nothing is emitted. -/
def sameStreams (s t : State) : Prop := sameInput s t ∧ t.output = s.output

/-- Everything but the general registers is as before. -/
def sameButRegs (s t : State) : Prop :=
  t.pc = s.pc ∧ t.sp = s.sp ∧ sameMem s t ∧ sameStatus s t ∧ sameStreams s t

/-- Everything but `pc` is as before: a transfer that stores nothing. -/
def sameButPc (s t : State) : Prop :=
  sameRegs s t ∧ t.sp = s.sp ∧ sameMem s t ∧ sameStatus s t ∧ sameStreams s t

/-- What a fault may not touch (R203, R204): registers, sp, memory and the streams. -/
def sameStorage (s t : State) : Prop := sameRegs s t ∧ t.sp = s.sp ∧ sameMem s t ∧ sameStreams s t

/-! ### Fetching -/

/-- The machine runs and its memory holds these bytes from `pc` on, all of them inside memory. -/
def State.fetches (s : State) (bytes : List Byte) : Prop :=
  s.halted = false ∧ s.pc + bytes.length ≤ Config.memSize ∧ s.mem.bytes s.pc bytes.length = bytes

/-- The machine runs, and an instruction with opcode `op` and `len` bytes is not wholly inside memory at `pc` (or not even
its opcode is). -/
def State.cutShort (s : State) (op : Byte) (len : Nat) : Prop :=
  s.halted = false ∧
    (Config.memSize ≤ s.pc ∨ (s.pc < Config.memSize ∧ s.mem.get s.pc = op ∧ Config.memSize < s.pc + len))

/-- `bytes` at `pc` make the next step run `i` with the post-fetch `pc`. -/
def runsAs (bytes : List Byte) (i : Instr) : Prop :=
  ∀ s : State, s.fetches bytes → step s = exec i (s.setPc (s.pc + bytes.length))

/-- The bytes of format RI (R81) run the instruction whose operand is `hi * 256 + lo` (R83). -/
def runsRI (op : Byte) (mk : Byte → Word → Instr) : Prop :=
  ∀ (r lo hi : Byte) (w : Word), w.toNat = hi.toNat * 256 + lo.toNat → runsAs [op, r, lo, hi] (mk r w)

/-- The bytes of format A (R81) run the instruction whose operand is `hi * 256 + lo` (R83). -/
def runsA (op : Byte) (mk : Word → Instr) : Prop :=
  ∀ (lo hi : Byte) (w : Word), w.toNat = hi.toNat * 256 + lo.toNat → runsAs [op, lo, hi] (mk w)

/-- An instruction that does not fit is the fault `PcOutOfBounds`, and nothing but `pc` and the status changes. -/
def fetchFaults (op : Byte) (len : Nat) : Prop :=
  ∀ s : State, s.cutShort op len →
    ∃ t : State, step s = .next t ∧ t.halted = true ∧ t.fault = some (.pcOutOfBounds t.pc) ∧ sameStorage s t

/-! ### Legal states -/

/-- A fault record agrees with R201 (what each kind can record) and R204 (the `pc` it leaves). `JumpOutOfBounds` is never
recorded (R213). -/
def FaultRecord.fits (f : FaultRecord) (s : State) : Prop :=
  match f with
  | .pcOutOfBounds p => p = s.pc ∧ (p = 65535 ∨ p = 65536)
  | .unknownOpcode op a => shapeOf op = none ∧ s.pc = a + 1 ∧ s.mem.get a = op
  | .storeOutOfBounds addr => addr = 0xFFFF
  | .jumpOutOfBounds _ _ => False
  | .stackOverflow sp => sp = 0 ∧ s.sp = 0
  | .stackUnderflow sp => sp = 65536 ∧ s.sp = 65536

/-- The invariant of the machine (R27, R31, R33, R201, R213, and the canonical form of memory). -/
structure State.Inv (s : State) : Prop where
  memory : s.mem.wf = true
  pcBound : s.pc ≤ 65536
  spBound : s.sp ≤ 65536
  spEven : s.sp % 2 = 0
  faultHalts : s.fault ≠ none → s.halted = true
  faultFits : ∀ f, s.fault = some f → f.fits s

end Sys2Proof.Machine
end

