-- ==== Sys2Proof/Certificates/Slice0/Obligations.lean ====
section
/-! DEFINITION. The statements for the provers. "R<n>" is a rule of spec/, "D<n>" a decision of spec/92_eei_decisions.md (the
spec's own choice), "log <n>" the model's assumption log. -/

open Sys2Proof Sys2Proof.Machine

/-! ### Encoding -/

/-- Decoding an encoded instruction gives it back with what follows it, for every instruction and every operand
(R81, R84). -/
def Obligations.DecodeEncodeRoundTrip : Prop :=
  ∀ (i : Instr) (rest : List Byte), decode (encode i ++ rest) = .ok i rest

/-- Each sequence of bytes has one reading: what the decoder accepts is the encoding of what it answers (R81, R84). -/
def Obligations.EncodeDecodeRoundTrip : Prop :=
  ∀ (bytes rest : List Byte) (i : Instr), decode bytes = .ok i rest → encode i ++ rest = bytes

/-- R81 and R84: the fifteen rows, the register byte raw and the operand with its low byte first. -/
def Obligations.OpcodeMapOfTheFifteen : Prop :=
  ∀ (r lo hi : Byte) (w : Word) (rest : List Byte), w.toNat = hi.toNat * 256 + lo.toNat →
    decode (0x00 :: rest) = .ok .nop rest ∧
    decode (0x01 :: r :: lo :: hi :: rest) = .ok (.load r w) rest ∧
    decode (0x02 :: r :: lo :: hi :: rest) = .ok (.add r w) rest ∧
    decode (0x03 :: r :: lo :: hi :: rest) = .ok (.store r w) rest ∧
    decode (0x04 :: lo :: hi :: rest) = .ok (.jmp w) rest ∧
    decode (0x05 :: r :: lo :: hi :: rest) = .ok (.jz r w) rest ∧
    decode (0x06 :: r :: lo :: hi :: rest) = .ok (.and r w) rest ∧
    decode (0x07 :: r :: lo :: hi :: rest) = .ok (.or r w) rest ∧
    decode (0x08 :: r :: lo :: hi :: rest) = .ok (.xor r w) rest ∧
    decode (0x09 :: r :: rest) = .ok (.not r) rest ∧
    decode (0x0A :: lo :: hi :: rest) = .ok (.call w) rest ∧
    decode (0x0B :: rest) = .ok .ret rest ∧
    decode (0x0C :: r :: lo :: hi :: rest) = .ok (.inp r w) rest ∧
    decode (0x0D :: r :: lo :: hi :: rest) = .ok (.out r w) rest ∧
    decode (0xFF :: rest) = .ok .halt rest

/-- R86: each of the 241 values 0x0E to 0xFE is rejected by the decoder, and executing it halts the machine with a fault. -/
def Obligations.OtherOpcodesFault : Prop :=
  ∀ op : Byte, 0x0E ≤ op.toNat → op.toNat ≤ 0xFE →
    (∀ rest : List Byte, decode (op :: rest) = .unknownOpcode op) ∧
    (∀ s : State, s.fetches [op] → ∃ t : State, step s = .next t ∧ t.halted = true ∧ t.fault ≠ none)

/-- R85: the length follows from byte 0 alone, by the rule's list; every other opcode consumes one byte before faulting. That
the faulting step leaves `pc` after that byte is decision D7 (log 10). -/
def Obligations.OpcodeAloneGivesLength : Prop :=
  (∀ (op : Byte) (bytes rest : List Byte) (i : Instr), decode (op :: bytes) = .ok i rest →
    ((op = 0x00 ∨ op = 0x0B ∨ op = 0xFF) ∧ i.length = 1 ∧ bytes.length = rest.length) ∨
    (op = 0x09 ∧ i.length = 2 ∧ bytes.length = rest.length + 1) ∨
    ((op = 0x04 ∨ op = 0x0A) ∧ i.length = 3 ∧ bytes.length = rest.length + 2) ∨
    ((op = 0x01 ∨ op = 0x02 ∨ op = 0x03 ∨ op = 0x05 ∨ op = 0x06 ∨ op = 0x07 ∨ op = 0x08 ∨ op = 0x0C ∨ op = 0x0D) ∧
      i.length = 4 ∧ bytes.length = rest.length + 3)) ∧
  (∀ (op : Byte) (rest : List Byte), decode (op :: rest) = .unknownOpcode op →
    ∀ s : State, s.fetches [op] → ∃ t : State, step s = .next t ∧ t.pc = s.pc + 1 ∧ t.fault ≠ none)

/-- An instruction written as a table word, in the table's bit numbering, decodes to itself (R82). -/
def Obligations.TableWordsDecode : Prop :=
  ∀ i : Instr, decodeTableWord (8 * i.length) i.tableWord = some i

/-- Words written out from R81 and R84: at least one of each format N, R, A and RI, and an unrecognised byte. -/
def Obligations.KnownWordsDecode : Prop :=
  decode [0x0B] = .ok .ret [] ∧ decode [0xFF] = .ok .halt [] ∧
  decode [0x01, 0x00, 0x34, 0x12] = .ok (.load 0 0x1234) [] ∧
  decode [0x03, 0x01, 0x00, 0x01] = .ok (.store 1 0x0100) [] ∧
  decode [0x0A, 0x1A, 0x00] = .ok (.call 0x001A) [] ∧
  decode [0x09, 0x0B] = .ok (.not 0x0B) [] ∧
  decode [0x0D, 0x00, 0x01, 0xFF] = .ok (.out 0 0xFF01) [] ∧
  decode [0x0E] = .unknownOpcode 0x0E

/-- The model's own loader of one instruction (log 23): an instruction placed at `pc` is the one the next step runs. -/
def Obligations.PlacedInstructionRunsNext : Prop :=
  ∀ (i : Instr) (s : State), s.mem.wf = true → s.pc + i.length ≤ Config.memSize →
    step (s.withFetchWord (8 * i.length) i.tableWord) =
      exec i ((s.withFetchWord (8 * i.length) i.tableWord).setPc (s.pc + i.length))

/-! ### Memory and fetch -/

/-- R56: a word is read with its low byte at the lower address. -/
def Obligations.MemReadIsLittleEndian : Prop :=
  ∀ (m : Memory) (a : Nat), (m.get16 a).toNat = (m.get (a + 1)).toNat * 256 + (m.get a).toNat

/-- R57: a write of one or two bytes puts them where the rule says and changes no other byte. -/
def Obligations.MemWriteWritesExactlyItsBytes : Prop :=
  ∀ m : Memory, m.wf = true →
    (∀ (a : Nat) (b : Byte), a < Config.memSize →
      (m.set a b).get a = b ∧ (∀ c : Nat, c ≠ a → (m.set a b).get c = m.get c) ∧ (m.set a b).wf = true) ∧
    (∀ (a : Nat) (v : Word), a + 1 < Config.memSize →
      ((m.set16 a v).get a).toNat = v.toNat % 256 ∧ ((m.set16 a v).get (a + 1)).toNat = v.toNat / 256 ∧
      (∀ c : Nat, c < a ∨ a + 2 ≤ c → (m.set16 a v).get c = m.get c) ∧
      (m.set16 a v).get16 a = v ∧ (m.set16 a v).wf = true)

/-- The model's canonical form (R51): two memories in it that read alike are the same data. -/
def Obligations.CanonicalMemoriesAreEqualData : Prop :=
  ∀ m m' : Memory, m.wf = true → m'.wf = true → (∀ a : Nat, a < Config.memSize → m.get a = m'.get a) → m = m'

/-- R58: `Fetch8()`. -/
def Obligations.Fetch8ReadsOneByteOrFaults : Prop :=
  ∀ s : State,
    (65536 ≤ s.pc → fetch8 s = .raised { s with fault := some (.pcOutOfBounds s.pc), halted := true }) ∧
    (s.pc < 65536 → fetch8 s = .value (s.mem.get s.pc) { s with pc := s.pc + 1 })

/-- `Fetch16()` (R59) as one two-byte access, with `pc` unchanged when it faults: the spec's decision D6 (log 9). -/
def Obligations.Fetch16ReadsOneWordOrFaults : Prop :=
  ∀ s : State,
    (65534 < s.pc → fetch16 s = .raised { s with fault := some (.pcOutOfBounds s.pc), halted := true }) ∧
    (s.pc ≤ 65534 → ∃ w : Word, w.toNat = (s.mem.get (s.pc + 1)).toNat * 256 + (s.mem.get s.pc).toNat ∧
      fetch16 s = .value w { s with pc := s.pc + 2 })

/-- The word a STORE writes is what the very next fetches read there, as an opcode or register byte or as an operand:
the spec's decision D19 for R66 (log 21). -/
def Obligations.StoreIsSeenByTheNextFetch : Prop :=
  ∀ (s : State) (r : Byte) (addr : Word) (i : Fin 8), s.mem.wf = true → i.val = r.toNat → addr.toNat ≤ 65534 →
    ∃ t : State, exec (.store r addr) s = .next t ∧
      (∃ u : State, fetch8 (t.setPc addr.toNat) = .value (loByte (s.reg i)) u) ∧
      (∃ u : State, fetch8 (t.setPc (addr.toNat + 1)) = .value (hiByte (s.reg i)) u) ∧
      (∃ u : State, fetch16 (t.setPc addr.toNat) = .value (s.reg i) u)

/-! ### One step -/

/-- R89: when the bytes at `pc` decode to `i`, a step of a running machine is `exec i` with `pc` moved past them. -/
def Obligations.StepRunsTheDecodedInstruction : Prop :=
  ∀ (s : State) (i : Instr) (rest : List Byte), s.halted = false → decode s.window = .ok i rest →
    step s = exec i (s.setPc (s.pc + i.length))

/-- An instruction that runs past the end of memory: the fault and the `pc` it leaves, by format (the first three rows of
R204's table; decisions D6 and D7, log 9 and 10). -/
def Obligations.FetchPastTheEndFaults : Prop :=
  ∀ s : State, s.halted = false → decode s.window = .truncated →
    ∃ p : Nat, step s = .next { s with pc := p, fault := some (.pcOutOfBounds p), halted := true } ∧
      (Config.memSize ≤ s.pc → p = s.pc) ∧
      (s.pc < Config.memSize → s.mem.get s.pc = 0x09 ∨ s.mem.get s.pc = 0x04 ∨ s.mem.get s.pc = 0x0A → p = s.pc + 1) ∧
      (s.pc < Config.memSize → s.mem.get s.pc ≠ 0x09 → s.mem.get s.pc ≠ 0x04 → s.mem.get s.pc ≠ 0x0A →
        p = if s.pc = 65535 then 65536 else s.pc + 2)

/-- R112 with the record of decision D8 and the `pc` of decision D7 (log 10 and 11): an unrecognised opcode halts the
machine after its own byte and changes nothing else. -/
def Obligations.UnknownOpcodeHaltsAfterItsByte : Prop :=
  ∀ (s : State) (op : Byte), s.fetches [op] → 0x0E ≤ op.toNat → op.toNat ≤ 0xFE →
    step s = .next { s with pc := s.pc + 1, fault := some (.unknownOpcode op s.pc), halted := true }

/-- R203: raising a fault writes the record and the halt flag and ends the step, whatever was to follow; nothing is saved, no
control is transferred, and every later step is the identity. That the state a fault leaves is the step's NEXT state is the
model's choice (log 4), and that the later steps are the identity is decision D17 (log 20). -/
def Obligations.RaiseRecordsTheFaultAndHalts : Prop :=
  ∀ (s : State) (f : FaultRecord),
    (s.raise f).fault = some f ∧ (s.raise f).halted = true ∧ (s.raise f).pc = s.pc ∧ sameStorage s (s.raise f) ∧
    (∀ (α : Type) (k : α → State → Answer), (Result.raised (s.raise f)).andThen k = .next (s.raise f)) ∧
    step (s.raise f) = .next (s.raise f)

/-- A halted machine stays as it is under any number of steps, so at most one fault is raised in a run (R90, R205; the
identity is decision D17, log 20). -/
def Obligations.HaltedMachineNeverChanges : Prop :=
  ∀ (s : State) (n : Nat), s.halted = true → step s = .next s ∧ core.run n s = .next s

/-! ### The instructions: encoding, effect, frame, fetch faults -/

/-- NOP (R110). That the memory reset leaves is a field of NOPs is the zero fill, decision D5 and C2 (log 8). -/
def Obligations.NopOnlyAdvancesPc : Prop :=
  runsAs [0x00] .nop ∧ fetchFaults 0x00 1 ∧ (∀ s : State, exec .nop s = .next s) ∧
  (∀ a : Nat, State.reset.mem.get a = 0x00)

/-- HALT (R111). That the next step is the identity is decision D17 (log 20). -/
def Obligations.HaltStopsWithoutFault : Prop :=
  runsAs [0xFF] .halt ∧ fetchFaults 0xFF 1 ∧
  ∀ s : State, ∃ t : State, exec .halt s = .next t ∧ t.halted = true ∧ t.fault = s.fault ∧ t.pc = s.pc ∧
    sameStorage s t ∧ step t = .next t

/-- R120: the register named holds the immediate; nothing else changes; a byte 8 to 255 names none. -/
def Obligations.LoadWritesTheImmediate : Prop :=
  runsRI 0x01 .load ∧ fetchFaults 0x01 4 ∧
  ∀ (r : Byte) (imm : Word) (s : State), ∃ t : State, exec (.load r imm) s = .next t ∧
    onlyRegChanged r (fun _ => imm) s t ∧ sameButRegs s t

/-- R121: the sum modulo 2^16, with no carry anywhere. -/
def Obligations.AddWrapsModulo65536 : Prop :=
  runsRI 0x02 .add ∧ fetchFaults 0x02 4 ∧
  ∀ (r : Byte) (imm : Word) (s : State), ∃ t : State, exec (.add r imm) s = .next t ∧
    (∀ i : Fin 8, i.val = r.toNat → (t.reg i).toNat = ((s.reg i).toNat + imm.toNat) % 65536) ∧
    sameRegsBut r s t ∧ sameButRegs s t

/-- R150, R151 and R152, bit by bit. -/
def Obligations.AndOrXorActOnEachBit : Prop :=
  (runsRI 0x06 .and ∧ fetchFaults 0x06 4 ∧ runsRI 0x07 .or ∧ fetchFaults 0x07 4 ∧ runsRI 0x08 .xor ∧ fetchFaults 0x08 4) ∧
  ∀ (r : Byte) (imm : Word) (s : State),
    (∃ t : State, exec (.and r imm) s = .next t ∧ sameRegsBut r s t ∧ sameButRegs s t ∧
      ∀ (i : Fin 8) (k : Nat), i.val = r.toNat → (t.reg i).getLsbD k = ((s.reg i).getLsbD k && imm.getLsbD k)) ∧
    (∃ t : State, exec (.or r imm) s = .next t ∧ sameRegsBut r s t ∧ sameButRegs s t ∧
      ∀ (i : Fin 8) (k : Nat), i.val = r.toNat → (t.reg i).getLsbD k = ((s.reg i).getLsbD k || imm.getLsbD k)) ∧
    (∃ t : State, exec (.xor r imm) s = .next t ∧ sameRegsBut r s t ∧ sameButRegs s t ∧
      ∀ (i : Fin 8) (k : Nat), i.val = r.toNat → (t.reg i).getLsbD k = ((s.reg i).getLsbD k ^^ imm.getLsbD k))

/-- R153: the 16-bit complement. -/
def Obligations.NotComplementsTheRegister : Prop :=
  (∀ r : Byte, runsAs [0x09, r] (.not r)) ∧ fetchFaults 0x09 2 ∧
  ∀ (r : Byte) (s : State), ∃ t : State, exec (.not r) s = .next t ∧
    (∀ i : Fin 8, i.val = r.toNat → (t.reg i).toNat = 0xFFFF - (s.reg i).toNat) ∧
    sameRegsBut r s t ∧ sameButRegs s t

/-- STORE (R130). The address stored to is the operand. The `pc` a fault leaves is decision D7 (log 10) and the silence of
an invalid register byte is decision D11 (log 14). -/
def Obligations.StoreWritesBothBytesOrFaults : Prop :=
  runsRI 0x03 .store ∧ fetchFaults 0x03 4 ∧
  (∀ (r : Byte) (addr : Word) (s : State), 8 ≤ r.toNat → exec (.store r addr) s = .next s) ∧
  (∀ (r : Byte) (addr : Word) (s : State), r.toNat < 8 → addr.toNat = 0xFFFF →
    ∃ t : State, exec (.store r addr) s = .next t ∧ t.halted = true ∧ t.fault = some (.storeOutOfBounds addr) ∧
      t.pc = s.pc ∧ sameStorage s t) ∧
  (∀ (r : Byte) (addr : Word) (s : State) (i : Fin 8), i.val = r.toNat → addr.toNat ≤ 0xFFFE → s.mem.wf = true →
    ∃ t : State, exec (.store r addr) s = .next t ∧
      (t.mem.get addr.toNat).toNat = (s.reg i).toNat % 256 ∧ (t.mem.get (addr.toNat + 1)).toNat = (s.reg i).toNat / 256 ∧
      sameMemOutside addr.toNat 2 s t ∧ sameRegs s t ∧ t.pc = s.pc ∧ t.sp = s.sp ∧ sameStatus s t ∧ sameStreams s t)

/-- R140: the next instruction is at the operand, whatever it is; no fault can come of the target. -/
def Obligations.JmpTransfersToTheOperand : Prop :=
  runsA 0x04 .jmp ∧ fetchFaults 0x04 3 ∧
  ∀ (addr : Word) (s : State), ∃ t : State, exec (.jmp addr) s = .next t ∧ t.pc = addr.toNat ∧ sameButPc s t

/-- JZ (R141): taken exactly when the byte names a register that holds zero in all 16 bits. Not taken on an invalid byte
is decision D11 (log 14). -/
def Obligations.JzTransfersOnAZeroRegister : Prop :=
  runsRI 0x05 .jz ∧ fetchFaults 0x05 4 ∧
  (∀ (r : Byte) (addr : Word) (s : State) (i : Fin 8), i.val = r.toNat → (s.reg i).toNat = 0 →
    ∃ t : State, exec (.jz r addr) s = .next t ∧ t.pc = addr.toNat ∧ sameButPc s t) ∧
  (∀ (r : Byte) (addr : Word) (s : State) (i : Fin 8), i.val = r.toNat → (s.reg i).toNat ≠ 0 →
    exec (.jz r addr) s = .next s) ∧
  (∀ (r : Byte) (addr : Word) (s : State), 8 ≤ r.toNat → exec (.jz r addr) s = .next s)

/-- CALL (R162, R160) from the post-fetch `pc`. Byte order of the pushed word: decision D9 (log 12). Its value for
`pc = 65536`: D10 (log 13). The `pc` of the overflow: D7 (log 10). The stop for `sp > 65536` is the model's (log 5). -/
def Obligations.CallPushesThePostFetchPc : Prop :=
  runsA 0x0A .call ∧ fetchFaults 0x0A 3 ∧
  (∀ (addr : Word) (s : State), s.sp < 2 →
    ∃ t : State, exec (.call addr) s = .next t ∧ t.halted = true ∧ t.fault = some (.stackOverflow s.sp) ∧ t.pc = s.pc ∧
      sameStorage s t) ∧
  (∀ (addr : Word) (s : State), 2 ≤ s.sp → s.sp ≤ 65536 → s.mem.wf = true →
    ∃ t : State, exec (.call addr) s = .next t ∧ t.pc = addr.toNat ∧ t.sp = s.sp - 2 ∧
      (t.mem.get (s.sp - 2)).toNat = s.pc % 65536 % 256 ∧ (t.mem.get (s.sp - 1)).toNat = s.pc % 65536 / 256 ∧
      sameMemOutside (s.sp - 2) 2 s t ∧ sameRegs s t ∧ sameStatus s t ∧ sameStreams s t) ∧
  (∀ (addr : Word) (s : State), 65536 < s.sp → exec (.call addr) s = .fault .pushOutsideMemory)

/-- RET (R163, R161). Byte order of the popped word: decision D9 (log 12). The `pc` of the underflow: D7 (log 10). -/
def Obligations.RetPopsThePc : Prop :=
  runsAs [0x0B] .ret ∧ fetchFaults 0x0B 1 ∧
  (∀ s : State, 65534 < s.sp →
    ∃ t : State, exec .ret s = .next t ∧ t.halted = true ∧ t.fault = some (.stackUnderflow s.sp) ∧ t.pc = s.pc ∧
      sameStorage s t) ∧
  (∀ s : State, s.sp ≤ 65534 →
    ∃ t : State, exec .ret s = .next t ∧ t.pc = (s.mem.get (s.sp + 1)).toNat * 256 + (s.mem.get s.sp).toNat ∧
      t.sp = s.sp + 2 ∧ sameMem s t ∧ sameRegs s t ∧ sameStatus s t ∧ sameStreams s t)

/-- IN (R182, R180) on port 0xFF00 with a valid register: the next supplied byte, zero-extended (decision D12, log 15), for
EVERY byte the environment may supply: the first byte listed, else the free value (log 1). An invalid byte consumes nothing
(D11, log 14). -/
def Obligations.InReadsTheNextSuppliedByte : Prop :=
  runsRI 0x0C .inp ∧ fetchFaults 0x0C 4 ∧
  (∀ (r : Byte) (s : State), r.toNat < 8 →
    ∃ (t : State) (b : Byte), exec (.inp r 0xFF00) s = .next t ∧
      (∀ rest : List Byte, ∀ c : Byte, s.input = c :: rest → b = c) ∧
      (s.input = [] → b = Config.inputByte s.inputCount) ∧
      (∀ i : Fin 8, i.val = r.toNat → (t.reg i).toNat = b.toNat) ∧ sameRegsBut r s t ∧
      t.input = s.input.tail ∧ t.inputCount = s.inputCount + 1 ∧ t.output = s.output ∧
      t.pc = s.pc ∧ t.sp = s.sp ∧ sameMem s t ∧ sameStatus s t) ∧
  (∀ (r : Byte) (s : State), 8 ≤ r.toNat → exec (.inp r 0xFF00) s = .next s)

/-- OUT (R183, R181) on port 0xFF00 with a valid register appends its low byte to the trace and changes nothing else. An
invalid byte emits nothing (decision D11, log 14). -/
def Obligations.OutEmitsTheLowByte : Prop :=
  runsRI 0x0D .out ∧ fetchFaults 0x0D 4 ∧
  (∀ (r : Byte) (s : State) (i : Fin 8), i.val = r.toNat →
    ∃ (t : State) (b : Byte), exec (.out r 0xFF00) s = .next t ∧ b.toNat = (s.reg i).toNat % 256 ∧
      t.output = s.output ++ [b] ∧ sameInput s t ∧
      t.pc = s.pc ∧ sameRegs s t ∧ t.sp = s.sp ∧ sameMem s t ∧ sameStatus s t) ∧
  (∀ (r : Byte) (s : State), 8 ≤ r.toNat → exec (.out r 0xFF00) s = .next s)

/-- R184: on every port but 0xFF00, compared on all 16 bits, IN and OUT do nothing but advance `pc` by 4. -/
def Obligations.OtherPortsHaveNoEffect : Prop :=
  (∀ (r : Byte) (port : Word) (s : State), port ≠ 0xFF00 →
    exec (.inp r port) s = .next s ∧ exec (.out r port) s = .next s) ∧
  (∀ (r lo hi : Byte) (s : State), hi.toNat * 256 + lo.toNat ≠ 0xFF00 →
    s.fetches [0x0C, r, lo, hi] ∨ s.fetches [0x0D, r, lo, hi] → step s = .next { s with pc := s.pc + 4 })

/-- R87 as decision D11 reads it (log 14): a register byte 8 to 255 turns the whole effect off in every instruction that
has one; the instruction keeps its length. -/
def Obligations.InvalidRegisterByteTurnsTheEffectOff : Prop :=
  ∀ (i : Instr) (r : Byte), i.registerByte = some r → 8 ≤ r.toNat →
    (∀ s : State, exec i s = .next s) ∧
    (∀ s : State, s.fetches (encode i) → step s = .next { s with pc := s.pc + i.length })

/-- The identities of R122 and R154 (derived there): ADD of 65536 - k subtracts k, and NOT then ADD 1 negates. -/
def Obligations.SubtractionAndNegationByAdd : Prop :=
  ∀ (s : State) (r : Byte) (i : Fin 8), i.val = r.toNat →
    (∀ k : Nat, k < 65536 → ∃ t : State, exec (.add r (BitVec.ofNat 16 (65536 - k))) s = .next t ∧
      ((t.reg i).toNat + k) % 65536 = (s.reg i).toNat) ∧
    (∃ t u : State, exec (.not r) s = .next t ∧ exec (.add r 1) t = .next u ∧
      (u.reg i).toNat = (65536 - (s.reg i).toNat) % 65536)

/-! ### The whole machine -/

/-- The reset values of R38. Clearing the fault record and the trace is decision D16 (log 19), the zero fill decision D5
(log 8). -/
def Obligations.ResetValues : Prop :=
  State.reset.pc = 0 ∧ (∀ i : Fin 8, State.reset.reg i = 0) ∧ State.reset.sp = 65536 ∧
  (∀ a : Nat, State.reset.mem.get a = 0x00) ∧ State.reset.halted = false ∧ State.reset.fault = none ∧
  State.reset.output = []

/-- The invariant holds at reset. -/
def Obligations.ResetIsLegal : Prop := State.reset.Inv

/-- From every legal state a step answers a next state, and that state is legal: `pc` and `sp` stay in range (R27, R31),
`sp` even, memory canonical, a fault record implies halted (R33) and agrees with R201 and R204. No step stops. The `pc` that goes with a record is decision D7 (log 10). -/
def Obligations.EveryStepCompletesInALegalState : Prop :=
  ∀ s : State, s.Inv → ∃ t : State, step s = .next t ∧ t.Inv

/-- Faults are precise (R204; the `pc` column is decision D7, log 10): when a step of a running machine records a fault,
the machine is halted, nothing but `pc` and the status has changed, and `pc` is the one of the table. -/
def Obligations.FaultsArePrecise : Prop :=
  ∀ (s t : State) (f : FaultRecord), s.halted = false → s.fault = none → step s = .next t → t.fault = some f →
    t.halted = true ∧ sameStorage s t ∧
    match f with
    | .pcOutOfBounds p => p = t.pc ∧ 65534 < p ∧ (t.pc = s.pc ∨ t.pc = s.pc + 1 ∨ t.pc = s.pc + 2)
    | .unknownOpcode op a => op = s.mem.get s.pc ∧ a = s.pc ∧ t.pc = s.pc + 1
    | .storeOutOfBounds addr => s.mem.get s.pc = 0x03 ∧ addr = 0xFFFF ∧ t.pc = s.pc + 4
    | .jumpOutOfBounds _ _ => False
    | .stackOverflow x => s.mem.get s.pc = 0x0A ∧ x = s.sp ∧ x < 2 ∧ t.pc = s.pc + 3
    | .stackUnderflow x => s.mem.get s.pc = 0x0B ∧ x = s.sp ∧ 65534 < x ∧ t.pc = s.pc + 1

/-- The second column of R202: which fault the effect of each instruction can raise, and with what information. That a STORE
with an invalid register byte raises none is decision D11 (log 14). -/
def Obligations.FaultsEachInstructionCanRaise : Prop :=
  ∀ (i : Instr) (s t : State) (f : FaultRecord), s.fault = none → exec i s = .next t → t.fault = some f →
    (∃ (r : Byte) (addr : Word), i = .store r addr ∧ r.toNat < 8 ∧ addr.toNat = 0xFFFF ∧ f = .storeOutOfBounds addr) ∨
    (∃ addr : Word, i = .call addr ∧ s.sp < 2 ∧ f = .stackOverflow s.sp) ∨
    (i = .ret ∧ 65534 < s.sp ∧ f = .stackUnderflow s.sp)

/-- R213 (derived there): `JumpOutOfBounds` is never raised. -/
def Obligations.JumpOutOfBoundsIsNeverRaised : Prop :=
  ∀ (s t : State) (op : Byte) (addr : Word), step s = .next t → t.fault = some (.jumpOutOfBounds op addr) →
    s.fault = some (.jumpOutOfBounds op addr)

/-- R30 (derived there): only CALL (subtracting 2) and RET (adding 2) move `sp`. -/
def Obligations.OnlyCallAndRetMoveSp : Prop :=
  ∀ s t : State, step s = .next t → t.sp ≠ s.sp →
    (s.mem.get s.pc = 0x0A ∧ t.sp + 2 = s.sp) ∨ (s.mem.get s.pc = 0x0B ∧ t.sp = s.sp + 2)

/-- R35 and R52: a step changes memory only as STORE, at its operand (R130), or as the push of CALL, at the new top of stack
(R160). That a STORE writes only when its register byte is valid is decision D11 (log 14). -/
def Obligations.OnlyStoreAndCallWriteMemory : Prop :=
  ∀ (s t : State) (a : Nat), step s = .next t → t.mem.get a ≠ s.mem.get a →
    (s.mem.get s.pc = 0x03 ∧ (s.mem.get (s.pc + 1)).toNat < 8 ∧
      (a = (s.mem.get16 (s.pc + 2)).toNat ∨ a = (s.mem.get16 (s.pc + 2)).toNat + 1)) ∨
    (s.mem.get s.pc = 0x0A ∧ 2 ≤ s.sp ∧ (a = s.sp - 2 ∨ a = s.sp - 1))

/-- The last column of R22's table: a step changes a general register only if its opcode is one that writes registers and
its register byte names that register; IN only on port 0xFF00. -/
def Obligations.OnlyTheNamedRegisterChanges : Prop :=
  ∀ (s t : State) (i : Fin 8), step s = .next t → t.reg i ≠ s.reg i →
    (s.mem.get (s.pc + 1)).toNat = i.val ∧
    (s.mem.get s.pc = 0x01 ∨ s.mem.get s.pc = 0x02 ∨ s.mem.get s.pc = 0x06 ∨ s.mem.get s.pc = 0x07 ∨
      s.mem.get s.pc = 0x08 ∨ s.mem.get s.pc = 0x09 ∨ (s.mem.get s.pc = 0x0C ∧ s.mem.get16 (s.pc + 2) = 0xFF00))

/-- R32: HALT and every fault set `halted`, nothing else does, and no step clears it. -/
def Obligations.OnlyHaltAndFaultsStopTheMachine : Prop :=
  ∀ s t : State, s.fault = none → step s = .next t →
    (s.halted = true → t.halted = true) ∧
    (s.halted = false →
      (t.halted = true ↔ (s.pc < 65536 ∧ s.mem.get s.pc = 0xFF) ∨ t.fault ≠ none))

/-- R32 and R33: no instruction reads `halted` or `fault`. Whatever they hold before it, an instruction does the same to the
rest of the state and writes the same to them: it sets `halted` or leaves it, and writes one record or leaves the old one. -/
def Obligations.StatusIsNeverRead : Prop :=
  ∀ (i : Instr) (s t : State), exec i s = .next t →
    ∃ (stops : Bool) (raised : Option FaultRecord), ∀ (h : Bool) (f : Option FaultRecord),
      ∃ u : State, exec i { s with halted := h, fault := f } = .next u ∧ u.pc = t.pc ∧ sameStorage t u ∧
        u.halted = (h || stops) ∧ u.fault = raised.or f

/-- The table of R26 (HALT's row is derived there): `pc` after each instruction that raises no fault. That a JZ with a register
byte 8 to 255 goes on at `a + 4` is decision D11 (log 14); that the word RET pops has its low byte at `sp` is decision D9
(log 12). -/
def Obligations.PcAfterEachInstruction : Prop :=
  ∀ (i : Instr) (s t : State), s.fetches (encode i) → step s = .next t → t.fault = none →
    t.pc =
      match i with
      | .nop => s.pc + 1
      | .halt => s.pc + 1
      | .ret => (s.mem.get (s.sp + 1)).toNat * 256 + (s.mem.get s.sp).toNat
      | .not _ => s.pc + 2
      | .jmp addr => addr.toNat
      | .call addr => addr.toNat
      | .jz r addr => if h : r.toNat < 8 then (if s.reg ⟨r.toNat, h⟩ = 0 then addr.toNat else s.pc + 4) else s.pc + 4
      | .load _ _ => s.pc + 4
      | .add _ _ => s.pc + 4
      | .store _ _ => s.pc + 4
      | .and _ _ => s.pc + 4
      | .or _ _ => s.pc + 4
      | .xor _ _ => s.pc + 4
      | .inp _ _ => s.pc + 4
      | .out _ _ => s.pc + 4

/-- The streams (R36, R180, R181; the fields are the model's, log 1 and 3): the trace only grows, by at most one byte and
only at an OUT; input is consumed one byte at a time and only at an IN. That the port is no memory address, so that a STORE to
0xFF00 or a fetch from there does neither, is decision D14 (R63; log 17). -/
def Obligations.OnlyInAndOutTouchTheStreams : Prop :=
  ∀ s t : State, step s = .next t →
    (t.output = s.output ∨ (s.mem.get s.pc = 0x0D ∧ s.mem.get16 (s.pc + 2) = 0xFF00 ∧ ∃ b : Byte, t.output = s.output ++ [b])) ∧
    ((t.input = s.input ∧ t.inputCount = s.inputCount) ∨
      (s.mem.get s.pc = 0x0C ∧ s.mem.get16 (s.pc + 2) = 0xFF00 ∧ t.input = s.input.tail ∧ t.inputCount = s.inputCount + 1))

/-- R164 item 3: N consecutive CALLs decrement `sp` by 2N, along any run of N steps that are CALLs and raise no fault. -/
def Obligations.ConsecutiveCallsDecrementSp : Prop :=
  ∀ (n : Nat) (run : Nat → State),
    (∀ k : Nat, k < n → (run k).halted = false ∧ (run k).mem.get (run k).pc = 0x0A ∧ step (run k) = .next (run (k + 1)) ∧
      (run (k + 1)).fault = none) →
    (run n).sp + 2 * n = (run 0).sp

/-- CALL, then a body that leaves `sp` and the two bytes at the top of the stack as the CALL left them, then RET: execution
resumes after the CALL with the old `sp` (R162, R163; the corner `pc = 65536` is decision D10, log 13). -/
def Obligations.CallThenRetResumesAfterTheCall : Prop :=
  ∀ (s t u : State) (addr : Word), s.mem.wf = true → 2 ≤ s.sp → s.sp ≤ 65536 → exec (.call addr) s = .next t →
    u.sp = t.sp → u.mem.get u.sp = t.mem.get t.sp → u.mem.get (u.sp + 1) = t.mem.get (t.sp + 1) →
    ∃ v : State, exec .ret u = .next v ∧ v.sp = s.sp ∧ v.pc = s.pc % 65536

/-! ### The host's operations -/

/-- `Reset()` from any state (R230). Clearing `fault` and `output` is decision D16 (log 19), the zero fill D5 (log 8). -/
def Obligations.ResetPutsEveryPartAtItsValue : Prop :=
  ∀ s : State,
    s.resetOp.pc = 0 ∧ (∀ i : Fin 8, s.resetOp.reg i = 0) ∧ s.resetOp.sp = 65536 ∧ (∀ a : Nat, s.resetOp.mem.get a = 0x00) ∧
    s.resetOp.halted = false ∧ s.resetOp.fault = none ∧ s.resetOp.output = []

/-- R232: the image's bytes from address 0 upward, no other byte and nothing else of the state. -/
def Obligations.LoadWritesTheImage : Prop :=
  ∀ (image : List Byte) (s : State), s.mem.wf = true → image.length ≤ 65536 →
    ∃ t : State, load image s = .ok t ∧
      (∀ (k : Nat) (h : k < image.length), t.mem.get k = image[k]) ∧
      (∀ k : Nat, image.length ≤ k → t.mem.get k = s.mem.get k) ∧
      t.mem.wf = true ∧ t.pc = s.pc ∧ sameRegs s t ∧ t.sp = s.sp ∧ sameStatus s t ∧ sameStreams s t

/-- R233: a longer image is rejected and never partially loaded; it is no fault of the core. -/
def Obligations.TooLongImageIsRejected : Prop :=
  ∀ (image : List Byte) (s : State), 65536 < image.length →
    load image s = .loadError ∧ ∃ d : Driver, Driver.load image ⟨.ready, s⟩ = .loadError d ∧ d.core = s

/-- R234 (derived there): the state in which the first cycle of a run works, after reset, load and the beginning of run,
whatever the machine held before. The zero fill is decision D5 (log 8); that reset clears the fault record and the trace is
decision D16 (log 19); the phases from which it may begin are the model's (log 18). -/
def Obligations.LaunchState : Prop :=
  ∀ (p : Phase) (s : State) (image supply : List Byte), p ≠ .running → image.length ≤ 65536 →
    ∃ d1 d2 d3 : Driver, Driver.reset ⟨p, s⟩ = .done d1 ∧ Driver.load image d1 = .done d2 ∧
      Driver.begin supply d2 = .done d3 ∧ d3.phase = .running ∧
      d3.core.pc = 0 ∧ (∀ i : Fin 8, d3.core.reg i = 0) ∧ d3.core.sp = 65536 ∧
      (∀ (k : Nat) (h : k < image.length), d3.core.mem.get k = image[k]) ∧
      (∀ k : Nat, image.length ≤ k → d3.core.mem.get k = 0x00) ∧
      d3.core.halted = false ∧ d3.core.fault = none ∧ d3.core.output = [] ∧ d3.core.input = supply ∧ d3.core.Inv

/-- Outside the sequence reset, load, run every host operation is refused (R236 as decision D15 settles it; log 18). -/
def Obligations.OutOfSequenceOperationsAreRefused : Prop :=
  ∀ (d : Driver) (image supply : List Byte),
    (d.phase ≠ .ready → ∃ w : OutOfSequence, Driver.load image d = .refused w) ∧
    (d.phase ≠ .loaded → ∃ w : OutOfSequence, Driver.begin supply d = .refused w) ∧
    (d.phase ≠ .running → ∃ w : OutOfSequence, Driver.step d = .refused w) ∧
    (d.phase = .running → ∃ w : OutOfSequence, Driver.reset d = .refused w)

/-- R91: a run repeats steps until the machine is halted, and stops there: a bounded run that answers `halted` gives the
state of that many steps, and no larger bound changes it; one that runs out of its bound is still RUNNING (D24, log 22). -/
def Obligations.RunStopsExactlyWhenHalted : Prop :=
  ∀ (n : Nat) (s t : State),
    (run n s = .halted t → t.halted = true ∧ core.run n s = .next t ∧ ∀ m : Nat, n ≤ m → run m s = .halted t) ∧
    (run n s = .outOfFuel t → t.halted = false ∧ core.run n s = .next t)

/-! ### The assembler's tokens (outside the core, R4) -/

/-- R98: the register tokens are R0 to R7 and r0 to r7, which map to 0 to 7; every other form is invalid. -/
def Obligations.RegisterTokensAreR0ToR7 : Prop :=
  ∀ token : List Char,
    (∀ r : Byte, Assembler.registerToken token = .ok r ↔
      r.toNat < 8 ∧ (token = ['R', Char.ofNat (48 + r.toNat)] ∨ token = ['r', Char.ofNat (48 + r.toNat)])) ∧
    ((∀ r : Byte, Assembler.registerToken token ≠ .ok r) → Assembler.registerToken token = .error .invalidRegister)

/-- R99 for base-10 tokens that do not begin with 0 (a leading zero is left open, N14; log 25): the value when it fits in
16 bits, else an error. -/
def Obligations.DecimalTokensMustFitSixteenBits : Prop :=
  ∀ (c : Char) (cs : List Char), 49 ≤ c.toNat → (∀ d : Char, d ∈ c :: cs → 48 ≤ d.toNat ∧ d.toNat ≤ 57) →
    Assembler.immediateToken (c :: cs) =
      if (c :: cs).foldl (fun acc d => acc * 10 + (d.toNat - 48)) 0 < 65536 then
        .ok (BitVec.ofNat 16 ((c :: cs).foldl (fun acc d => acc * 10 + (d.toNat - 48)) 0))
      else .error .invalidImmediate

/-- R99 for every token that is no numeral in any reading: the empty token; one without the prefix `0x` or `0X` that holds a
character other than a base-10 digit, a first digit 0 or not; and one with such a prefix and then nothing, or a character other
than a base-16 digit of either letter case. Whether `0X` is a prefix at all is left open (N14; log 25), and such a token is
invalid if it is and if it is not. -/
def Obligations.UnparsableTokensAreInvalid : Prop :=
  Assembler.immediateToken [] = .error .invalidImmediate ∧
  (∀ (token : List Char) (d : Char), d ∈ token → d.toNat < 48 ∨ 57 < d.toNat →
    (∀ rest : List Char, token ≠ '0' :: 'x' :: rest ∧ token ≠ '0' :: 'X' :: rest) →
    Assembler.immediateToken token = .error .invalidImmediate) ∧
  (∀ (x : Char) (digits : List Char), x = 'x' ∨ x = 'X' →
    (digits = [] ∨ ∃ d : Char, d ∈ digits ∧
      ¬ (48 ≤ d.toNat ∧ d.toNat ≤ 57) ∧ ¬ (65 ≤ d.toNat ∧ d.toNat ≤ 70) ∧ ¬ (97 ≤ d.toNat ∧ d.toNat ≤ 102)) →
    Assembler.immediateToken ('0' :: x :: digits) = .error .invalidImmediate)
end

