-- ==== Sys2Proof/Laws/Decode.lean ====
section
/-! SUPPORT. The byte order helpers say what the spec's notation says (spec/00_scope.md R7, 30_encoding.md R83). -/

namespace Sys2Proof

theorem loByte_toNat (v : Word) : (loByte v).toNat = v.toNat % 256 := by
  simp [loByte]

theorem hiByte_toNat (v : Word) : (hiByte v).toNat = v.toNat / 256 := by
  have := v.isLt
  simp [hiByte, Nat.shiftRight_eq_div_pow]
  omega

/-- `hi ++ lo = hi * 256 + lo` (R83). -/
theorem wordOfBytes_toNat (lo hi : Byte) : (wordOfBytes lo hi).toNat = hi.toNat * 256 + lo.toNat := by
  have h1 := lo.isLt
  simp only [wordOfBytes, BitVec.toNat_append]
  rw [← Nat.shiftLeft_add_eq_or_of_lt h1, Nat.shiftLeft_eq]

/-- The two bytes of a word put together again. -/
theorem wordOfBytes_lo_hi (v : Word) : wordOfBytes (loByte v) (hiByte v) = v := by
  apply BitVec.eq_of_toNat_eq
  rw [wordOfBytes_toNat, loByte_toNat, hiByte_toNat]
  omega

theorem loByte_wordOfBytes (lo hi : Byte) : loByte (wordOfBytes lo hi) = lo := by
  apply BitVec.eq_of_toNat_eq
  have := lo.isLt
  rw [loByte_toNat, wordOfBytes_toNat]
  omega

theorem hiByte_wordOfBytes (lo hi : Byte) : hiByte (wordOfBytes lo hi) = hi := by
  apply BitVec.eq_of_toNat_eq
  have := lo.isLt
  rw [hiByte_toNat, wordOfBytes_toNat]
  omega

end Sys2Proof
end

