-- ==== Sys2Proof/Laws/Memory.lean ====
section
/-! SUPPORT. The laws of memory: read after write, and every operation keeps the canonical form. -/

namespace Sys2Proof.Machine

theorem Memory.get_nil (a : Nat) : Memory.get [] a = Config.fill := rfl

theorem Memory.wfFrom_cons {lo a : Nat} {b : Byte} {rest : Memory} :
    Memory.wfFrom lo ((a, b) :: rest) = true ↔
      lo ≤ a ∧ a < Config.memSize ∧ b ≠ Config.fill ∧ Memory.wfFrom (a + 1) rest = true := by
  simp [Memory.wfFrom, and_assoc]

theorem Memory.wfFrom_mono {lo lo' : Nat} {m : Memory} (h : Memory.wfFrom lo m = true) (hl : lo' ≤ lo) :
    Memory.wfFrom lo' m = true := by
  cases m with
  | nil => rfl
  | cons c rest =>
    obtain ⟨h1, h2⟩ := Memory.wfFrom_cons.1 h
    exact Memory.wfFrom_cons.2 ⟨by omega, h2⟩

/-- Below the first listed address everything reads as the fill. -/
theorem Memory.get_below {lo a : Nat} {m : Memory} (h : Memory.wfFrom lo m = true) (ha : a < lo) :
    m.get a = Config.fill := by
  induction m generalizing lo with
  | nil => rfl
  | cons c rest ih =>
    obtain ⟨k, v⟩ := c
    obtain ⟨h1, -, -, h4⟩ := Memory.wfFrom_cons.1 h
    simp only [Memory.get]
    rw [if_neg (by omega)]
    exact ih h4 (by omega)

/-- A write leaves every other byte alone. -/
theorem Memory.get_set_other (m : Memory) (a : Nat) (b : Byte) {a' : Nat} (h : a' ≠ a) :
    (m.set a b).get a' = m.get a' := by
  induction m with
  | nil =>
    simp only [Memory.set]
    split <;> simp [Memory.get, h]
  | cons c rest ih =>
    obtain ⟨k, v⟩ := c
    simp only [Memory.set]
    split
    · split <;> simp [Memory.get, h]
    · split
      · rename_i hk
        subst hk
        split <;> simp [Memory.get, h]
      · simp [Memory.get, ih]

/-- A read after a write gives the byte written. -/
theorem Memory.get_set_same_from {lo : Nat} {m : Memory} (h : Memory.wfFrom lo m = true) (a : Nat) (b : Byte) :
    (m.set a b).get a = b := by
  induction m generalizing lo with
  | nil =>
    simp only [Memory.set]
    split
    · rename_i hb
      simp [Memory.get, hb]
    · simp [Memory.get]
  | cons c rest ih =>
    obtain ⟨k, v⟩ := c
    obtain ⟨h1, h2, h3, h4⟩ := Memory.wfFrom_cons.1 h
    simp only [Memory.set]
    split
    · rename_i hk
      split
      · rename_i hb
        rw [hb]
        simp only [Memory.get]
        rw [if_neg (by omega)]
        exact Memory.get_below h4 (by omega)
      · simp [Memory.get]
    · split
      · rename_i hk
        subst hk
        split
        · rename_i hb
          rw [hb]
          exact Memory.get_below h4 (by omega)
        · simp [Memory.get]
      · rename_i hk hk'
        simp only [Memory.get, if_neg hk']
        exact ih h4

theorem Memory.get_set_same {m : Memory} (h : m.wf = true) (a : Nat) (b : Byte) : (m.set a b).get a = b :=
  Memory.get_set_same_from h a b

theorem Memory.set_wfFrom {lo a : Nat} {m : Memory} (h : Memory.wfFrom lo m = true) (hlo : lo ≤ a)
    (ha : a < Config.memSize) (b : Byte) : Memory.wfFrom lo (m.set a b) = true := by
  induction m generalizing lo with
  | nil =>
    simp only [Memory.set]
    split
    · rfl
    · rename_i hb
      exact Memory.wfFrom_cons.2 ⟨hlo, ha, hb, rfl⟩
  | cons c rest ih =>
    obtain ⟨k, v⟩ := c
    obtain ⟨h1, h2, h3, h4⟩ := Memory.wfFrom_cons.1 h
    simp only [Memory.set]
    split
    · rename_i hk
      split
      · exact h
      · rename_i hb
        exact Memory.wfFrom_cons.2 ⟨hlo, ha, hb, Memory.wfFrom_cons.2 ⟨by omega, h2, h3, h4⟩⟩
    · split
      · rename_i hk
        subst hk
        split
        · exact Memory.wfFrom_mono h4 (by omega)
        · rename_i hb
          exact Memory.wfFrom_cons.2 ⟨h1, h2, hb, h4⟩
      · exact Memory.wfFrom_cons.2 ⟨h1, h2, h3, ih h4 (by omega)⟩

/-- A write in bounds keeps the canonical form. -/
theorem Memory.set_wf {m : Memory} (h : m.wf = true) {a : Nat} (ha : a < Config.memSize) (b : Byte) :
    (m.set a b).wf = true :=
  Memory.set_wfFrom h (Nat.zero_le a) ha b

theorem Memory.set16_wf {m : Memory} (h : m.wf = true) {a : Nat} (ha : a + 1 < Config.memSize) (v : Word) :
    (m.set16 a v).wf = true :=
  Memory.set_wf (Memory.set_wf h (by omega) _) ha _

/-- A word write leaves every byte outside its two alone. -/
theorem Memory.get_set16_other (m : Memory) (a : Nat) (v : Word) {b : Nat} (h : b < a ∨ a + 2 ≤ b) :
    (m.set16 a v).get b = m.get b := by
  rw [Memory.set16, Memory.get_set_other _ _ _ (by omega), Memory.get_set_other _ _ _ (by omega)]

theorem Memory.get_set16_lo {m : Memory} (h : m.wf = true) (a : Nat) (v : Word) :
    (m.set16 a v).get a = loByte v := by
  rw [Memory.set16, Memory.get_set_other _ _ _ (by omega), Memory.get_set_same h]

theorem Memory.get_set16_hi {m : Memory} (h : m.wf = true) {a : Nat} (ha : a < Config.memSize) (v : Word) :
    (m.set16 a v).get (a + 1) = hiByte v := by
  rw [Memory.set16, Memory.get_set_same (Memory.set_wf h ha _)]

/-- Writing a sequence of bytes keeps the canonical form; bytes outside memory are not written. -/
theorem Memory.setBytes_wf {m : Memory} (h : m.wf = true) (a : Nat) (bs : List Byte) : (m.setBytes a bs).wf = true := by
  induction bs generalizing m a with
  | nil => exact h
  | cons b rest ih =>
    simp only [Memory.setBytes]
    split
    · rename_i ha
      exact ih (Memory.set_wf h ha b) (a + 1)
    · exact ih h (a + 1)

/-- Writing a sequence of bytes leaves every byte outside it alone. -/
theorem Memory.get_setBytes_other (m : Memory) (a : Nat) (bs : List Byte) {b : Nat} (h : b < a ∨ a + bs.length ≤ b) :
    (m.setBytes a bs).get b = m.get b := by
  induction bs generalizing m a with
  | nil => rfl
  | cons c rest ih =>
    simp only [List.length_cons] at h
    simp only [Memory.setBytes]
    rw [ih _ _ (by omega)]
    split
    · exact Memory.get_set_other _ _ _ (by omega)
    · rfl

/-- The bytes of a run of memory, one by one. -/
theorem Memory.bytes_succ (m : Memory) (a n : Nat) : m.bytes a (n + 1) = m.get a :: m.bytes (a + 1) n := rfl

@[simp] theorem Memory.bytes_length (m : Memory) (a n : Nat) : (m.bytes a n).length = n := by
  induction n generalizing a with
  | zero => rfl
  | succ n ih => simp [Memory.bytes_succ, ih]

end Sys2Proof.Machine
end

