-- ==== Sys2Proof/Laws/State.lean ====
section
/-! SUPPORT. One lemma a field for each update of State, all true by rfl, so that no proof unfolds a record update. -/

namespace Sys2Proof.Machine

section
variable (s : State) (i : Fin 8) (v : Word) (n : Nat) (f : FaultRecord) (b : Byte)

/-! ### setReg -/

@[simp] theorem State.setReg_pc : (s.setReg i v).pc = s.pc := rfl
@[simp] theorem State.setReg_sp : (s.setReg i v).sp = s.sp := rfl
@[simp] theorem State.setReg_mem : (s.setReg i v).mem = s.mem := rfl
@[simp] theorem State.setReg_halted : (s.setReg i v).halted = s.halted := rfl
@[simp] theorem State.setReg_fault : (s.setReg i v).fault = s.fault := rfl
@[simp] theorem State.setReg_input : (s.setReg i v).input = s.input := rfl
@[simp] theorem State.setReg_inputCount : (s.setReg i v).inputCount = s.inputCount := rfl
@[simp] theorem State.setReg_output : (s.setReg i v).output = s.output := rfl

/-- Reading a register after writing one. -/
theorem State.reg_setReg (j : Fin 8) : (s.setReg i v).reg j = if j = i then v else s.reg j := by
  simp only [State.reg, State.setReg, Vector.getElem_set, Fin.ext_iff, eq_comm (a := i.val)]

@[simp] theorem State.reg_setReg_same : (s.setReg i v).reg i = v := by simp [State.reg_setReg]

theorem State.reg_setReg_other {j : Fin 8} (h : j ≠ i) : (s.setReg i v).reg j = s.reg j := by
  simp [State.reg_setReg, h]

/-! ### setPc -/

@[simp] theorem State.setPc_pc : (s.setPc n).pc = n := rfl
@[simp] theorem State.setPc_reg : (s.setPc n).reg i = s.reg i := rfl
@[simp] theorem State.setPc_regs : (s.setPc n).regs = s.regs := rfl
@[simp] theorem State.setPc_sp : (s.setPc n).sp = s.sp := rfl
@[simp] theorem State.setPc_mem : (s.setPc n).mem = s.mem := rfl
@[simp] theorem State.setPc_halted : (s.setPc n).halted = s.halted := rfl
@[simp] theorem State.setPc_fault : (s.setPc n).fault = s.fault := rfl
@[simp] theorem State.setPc_input : (s.setPc n).input = s.input := rfl
@[simp] theorem State.setPc_inputCount : (s.setPc n).inputCount = s.inputCount := rfl
@[simp] theorem State.setPc_output : (s.setPc n).output = s.output := rfl
@[simp] theorem State.setPc_setPc (m : Nat) : (s.setPc n).setPc m = s.setPc m := rfl

/-! ### write16 -/

@[simp] theorem State.write16_pc : (s.write16 n v).pc = s.pc := rfl
@[simp] theorem State.write16_reg : (s.write16 n v).reg i = s.reg i := rfl
@[simp] theorem State.write16_regs : (s.write16 n v).regs = s.regs := rfl
@[simp] theorem State.write16_sp : (s.write16 n v).sp = s.sp := rfl
@[simp] theorem State.write16_mem : (s.write16 n v).mem = s.mem.set16 n v := rfl
@[simp] theorem State.write16_halted : (s.write16 n v).halted = s.halted := rfl
@[simp] theorem State.write16_fault : (s.write16 n v).fault = s.fault := rfl
@[simp] theorem State.write16_input : (s.write16 n v).input = s.input := rfl
@[simp] theorem State.write16_inputCount : (s.write16 n v).inputCount = s.inputCount := rfl
@[simp] theorem State.write16_output : (s.write16 n v).output = s.output := rfl

/-! ### raise -/

@[simp] theorem State.raise_pc : (s.raise f).pc = s.pc := rfl
@[simp] theorem State.raise_reg : (s.raise f).reg i = s.reg i := rfl
@[simp] theorem State.raise_regs : (s.raise f).regs = s.regs := rfl
@[simp] theorem State.raise_sp : (s.raise f).sp = s.sp := rfl
@[simp] theorem State.raise_mem : (s.raise f).mem = s.mem := rfl
@[simp] theorem State.raise_halted : (s.raise f).halted = true := rfl
@[simp] theorem State.raise_fault : (s.raise f).fault = some f := rfl
@[simp] theorem State.raise_input : (s.raise f).input = s.input := rfl
@[simp] theorem State.raise_inputCount : (s.raise f).inputCount = s.inputCount := rfl
@[simp] theorem State.raise_output : (s.raise f).output = s.output := rfl

/-! ### consumeInput -/

@[simp] theorem State.consumeInput_pc : s.consumeInput.pc = s.pc := rfl
@[simp] theorem State.consumeInput_reg : s.consumeInput.reg i = s.reg i := rfl
@[simp] theorem State.consumeInput_sp : s.consumeInput.sp = s.sp := rfl
@[simp] theorem State.consumeInput_mem : s.consumeInput.mem = s.mem := rfl
@[simp] theorem State.consumeInput_halted : s.consumeInput.halted = s.halted := rfl
@[simp] theorem State.consumeInput_fault : s.consumeInput.fault = s.fault := rfl
@[simp] theorem State.consumeInput_input : s.consumeInput.input = s.input.tail := rfl
@[simp] theorem State.consumeInput_inputCount : s.consumeInput.inputCount = s.inputCount + 1 := rfl
@[simp] theorem State.consumeInput_output : s.consumeInput.output = s.output := rfl

/-! ### emit -/

@[simp] theorem State.emit_pc : (s.emit b).pc = s.pc := rfl
@[simp] theorem State.emit_reg : (s.emit b).reg i = s.reg i := rfl
@[simp] theorem State.emit_sp : (s.emit b).sp = s.sp := rfl
@[simp] theorem State.emit_mem : (s.emit b).mem = s.mem := rfl
@[simp] theorem State.emit_halted : (s.emit b).halted = s.halted := rfl
@[simp] theorem State.emit_fault : (s.emit b).fault = s.fault := rfl
@[simp] theorem State.emit_input : (s.emit b).input = s.input := rfl
@[simp] theorem State.emit_inputCount : (s.emit b).inputCount = s.inputCount := rfl
@[simp] theorem State.emit_output : (s.emit b).output = s.output ++ [b] := rfl

/-! ### The input supply -/

theorem State.nextInput_of_listed {rest : List Byte} (h : s.input = b :: rest) : s.nextInput = b := by
  simp [State.nextInput, h]

/-- With nothing listed the byte is the free value, whatever it is. -/
theorem State.nextInput_of_empty (h : s.input = []) : s.nextInput = Config.inputByte s.inputCount := by
  simp [State.nextInput, h]

end

end Sys2Proof.Machine
end

