-- ==== Sys2Proof/Laws/Ops.lean ====
section
/-! SUPPORT. One lemma for each shared operation that says everything it can do; proofs cite these and do not unfold the
operation. -/

namespace Sys2Proof.Machine

/-! ### Register operands -/

theorem regIndex_of_valid {r : Byte} (h : r.toNat < 8) : regIndex r = some ⟨r.toNat, h⟩ := by
  simp [regIndex, h]

theorem regIndex_of_invalid {r : Byte} (h : ¬ r.toNat < 8) : regIndex r = none := by
  simp [regIndex, h]

/-- The two cases of a guarded effect. -/
theorem whenValid_cases (r : Byte) (s : State) (body : Fin 8 → Answer) :
    (∃ h : r.toNat < 8, whenValid r s body = body ⟨r.toNat, h⟩) ∨ (8 ≤ r.toNat ∧ whenValid r s body = .next s) := by
  by_cases h : r.toNat < 8
  · exact .inl ⟨h, by simp [whenValid, regIndex_of_valid h]⟩
  · exact .inr ⟨by omega, by simp [whenValid, regIndex_of_invalid h]⟩

/-- A register update always completes, in one of two states. -/
theorem updateReg_cases (r : Byte) (f : Word → Word) (s : State) :
    (∃ h : r.toNat < 8, updateReg r f s = .next (s.setReg ⟨r.toNat, h⟩ (f (s.reg ⟨r.toNat, h⟩)))) ∨
      (8 ≤ r.toNat ∧ updateReg r f s = .next s) :=
  whenValid_cases r s _

/-! ### Sequencing -/

theorem Result.andThen_value {α : Type} (v : α) (s : State) (k : α → State → Answer) :
    (Result.value v s).andThen k = k v s := rfl

theorem Result.andThen_raised {α : Type} (s : State) (k : α → State → Answer) :
    (Result.raised s : Result α).andThen k = .next s := rfl

theorem Result.andThen_stop {α : Type} (f : Fault) (k : α → State → Answer) :
    (Result.stop f : Result α).andThen k = .fault f := rfl

/-! ### Fetch -/

theorem fetch8_in_bounds {s : State} (h : s.pc < Config.memSize) :
    fetch8 s = .value (s.mem.get s.pc) (s.setPc (s.pc + 1)) := by
  simp [fetch8, Nat.not_le.2 h]

theorem fetch8_out_of_bounds {s : State} (h : Config.memSize ≤ s.pc) :
    fetch8 s = .raised (s.raise (.pcOutOfBounds s.pc)) := by
  simp [fetch8, h]

theorem fetch16_in_bounds {s : State} (h : s.pc + 2 ≤ Config.memSize) :
    fetch16 s = .value (s.mem.get16 s.pc) (s.setPc (s.pc + 2)) := by
  have : ¬ Config.memSize - 2 < s.pc := by simp only [Config.memSize] at *; omega
  simp [fetch16, this]

theorem fetch16_out_of_bounds {s : State} (h : Config.memSize < s.pc + 2) :
    fetch16 s = .raised (s.raise (.pcOutOfBounds s.pc)) := by
  have : Config.memSize - 2 < s.pc := by simp only [Config.memSize] at *; omega
  simp [fetch16, this]

/-! ### Stack -/

theorem push16_overflow {s : State} (v : Word) (h : s.sp < 2) :
    push16 v s = .raised (s.raise (.stackOverflow s.sp)) := by
  simp [push16, h]

theorem push16_in_bounds {s : State} (v : Word) (h : 2 ≤ s.sp) (h' : s.sp ≤ Config.memSize) :
    push16 v s = .value () ({ s with sp := s.sp - 2 }.write16 (s.sp - 2) v) := by
  simp [push16, Nat.not_lt.2 h, Nat.not_lt.2 h']

theorem push16_outside {s : State} (v : Word) (h : Config.memSize < s.sp) :
    push16 v s = .stop .pushOutsideMemory := by
  have : ¬ s.sp < 2 := by
    have : (2 : Nat) < Config.memSize := by decide
    omega
  simp [push16, this, h]

theorem pop16_underflow {s : State} (h : Config.memSize < s.sp + 2) :
    pop16 s = .raised (s.raise (.stackUnderflow s.sp)) := by
  have : Config.memSize - 2 < s.sp := by simp only [Config.memSize] at *; omega
  simp [pop16, this]

theorem pop16_in_bounds {s : State} (h : s.sp + 2 ≤ Config.memSize) :
    pop16 s = .value (s.mem.get16 s.sp) { s with sp := s.sp + 2 } := by
  have : ¬ Config.memSize - 2 < s.sp := by simp only [Config.memSize] at *; omega
  simp [pop16, this]

/-! ### Jump target -/

/-- The target check never fails: a 16-bit address is below 65536. -/
theorem jumpTo_eq (op : Byte) (addr : Word) (s : State) : jumpTo op addr s = .next (s.setPc addr.toNat) := by
  have h := addr.isLt
  have : ¬ Config.memSize ≤ addr.toNat := by
    show ¬ 65536 ≤ addr.toNat
    omega
  simp [jumpTo, this]

/-! ### Step -/

theorem step_halted {s : State} (h : s.halted = true) : step s = .next s := by
  simp [step, h]

theorem step_running {s : State} (h : s.halted = false) : step s = (fetchInstr s).andThen exec := by
  simp [step, h]

end Sys2Proof.Machine
end

