-- ==== Sys2Proof/Laws/PerInstr.lean ====
section
/-! SUPPORT. Facts stated one instruction at a time. -/

namespace Sys2Proof.Laws.EncodedForm

/-- The encoded bytes begin with the opcode, there are as many as R85 says, and the opcode map sends that opcode to a
shape (R81, R84). -/
def Statement (i : Instr) : Prop :=
  (encode i).length = i.length ∧ (encode i).head? = some i.opcode ∧ (shapeOf i.opcode).isSome = true

theorem nop : Statement .nop := ⟨rfl, rfl, rfl⟩
theorem load (r : Byte) (imm : Word) : Statement (.load r imm) := ⟨rfl, rfl, rfl⟩
theorem add (r : Byte) (imm : Word) : Statement (.add r imm) := ⟨rfl, rfl, rfl⟩
theorem store (r : Byte) (addr : Word) : Statement (.store r addr) := ⟨rfl, rfl, rfl⟩
theorem jmp (addr : Word) : Statement (.jmp addr) := ⟨rfl, rfl, rfl⟩
theorem jz (r : Byte) (addr : Word) : Statement (.jz r addr) := ⟨rfl, rfl, rfl⟩
theorem and (r : Byte) (imm : Word) : Statement (.and r imm) := ⟨rfl, rfl, rfl⟩
theorem or (r : Byte) (imm : Word) : Statement (.or r imm) := ⟨rfl, rfl, rfl⟩
theorem xor (r : Byte) (imm : Word) : Statement (.xor r imm) := ⟨rfl, rfl, rfl⟩
theorem not (r : Byte) : Statement (.not r) := ⟨rfl, rfl, rfl⟩
theorem call (addr : Word) : Statement (.call addr) := ⟨rfl, rfl, rfl⟩
theorem ret : Statement .ret := ⟨rfl, rfl, rfl⟩
theorem inp (r : Byte) (port : Word) : Statement (.inp r port) := ⟨rfl, rfl, rfl⟩
theorem out (r : Byte) (port : Word) : Statement (.out r port) := ⟨rfl, rfl, rfl⟩
theorem halt : Statement .halt := ⟨rfl, rfl, rfl⟩

end Sys2Proof.Laws.EncodedForm
end

