-- ==== Sys2Proof/Laws/Step.lean ====
section
/-! SUPPORT. What the fetch of one instruction can do, and with it what a step can do: every statement about a step goes
through these two lemmas. -/

namespace Sys2Proof.Machine

theorem Memory.bytes_one (m : Memory) (a : Nat) : m.bytes a 1 = [m.get a] := rfl
theorem Memory.bytes_two (m : Memory) (a : Nat) : m.bytes a 2 = [m.get a, m.get (a + 1)] := rfl
theorem Memory.bytes_three (m : Memory) (a : Nat) : m.bytes a 3 = [m.get a, m.get (a + 1), m.get (a + 2)] := rfl
theorem Memory.bytes_four (m : Memory) (a : Nat) :
    m.bytes a 4 = [m.get a, m.get (a + 1), m.get (a + 2), m.get (a + 3)] := rfl

/-! ### The opcode map -/

/-- The opcode map sends an opcode to the shape of its instructions (R81, R84). -/
theorem shapeOf_cases (op : Byte) :
    (shapeOf op = none ∧ 0x0E ≤ op.toNat ∧ op.toNat ≤ 0xFE) ∨
    (∃ i, shapeOf op = some (.n i) ∧ encode i = [op] ∧ i.length = 1) ∨
    (∃ mk, shapeOf op = some (.r mk) ∧ ∀ r, encode (mk r) = [op, r] ∧ (mk r).length = 2) ∨
    (∃ mk, shapeOf op = some (.a mk) ∧ ∀ w, encode (mk w) = [op, loByte w, hiByte w] ∧ (mk w).length = 3) ∨
    (∃ mk, shapeOf op = some (.ri mk) ∧ ∀ r w, encode (mk r w) = [op, r, loByte w, hiByte w] ∧ (mk r w).length = 4) := by
  have hop : op = BitVec.ofNat 8 op.toNat := by simp
  have hlt := op.isLt
  generalize op.toNat = n at hop hlt
  subst hop
  by_cases h : 0x0E ≤ n ∧ n ≤ 0xFE
  · refine .inl ⟨?_, ?_⟩
    · have hn : (BitVec.ofNat 8 n).toNat = n := by simp; omega
      unfold shapeOf
      split <;> first | rfl | (rename_i hm; rw [hn] at hm; omega)
    · exact h
  · have : n = 0 ∨ n = 1 ∨ n = 2 ∨ n = 3 ∨ n = 4 ∨ n = 5 ∨ n = 6 ∨ n = 7 ∨ n = 8 ∨ n = 9 ∨ n = 10 ∨ n = 11 ∨
        n = 12 ∨ n = 13 ∨ n = 255 := by omega
    right
    rcases this with rfl | rfl | rfl | rfl | rfl | rfl | rfl | rfl | rfl | rfl | rfl | rfl | rfl | rfl | rfl
    · exact .inl ⟨.nop, rfl, rfl, rfl⟩
    · exact .inr (.inr (.inr ⟨.load, rfl, fun _ _ => ⟨rfl, rfl⟩⟩))
    · exact .inr (.inr (.inr ⟨.add, rfl, fun _ _ => ⟨rfl, rfl⟩⟩))
    · exact .inr (.inr (.inr ⟨.store, rfl, fun _ _ => ⟨rfl, rfl⟩⟩))
    · exact .inr (.inr (.inl ⟨.jmp, rfl, fun _ => ⟨rfl, rfl⟩⟩))
    · exact .inr (.inr (.inr ⟨.jz, rfl, fun _ _ => ⟨rfl, rfl⟩⟩))
    · exact .inr (.inr (.inr ⟨.and, rfl, fun _ _ => ⟨rfl, rfl⟩⟩))
    · exact .inr (.inr (.inr ⟨.or, rfl, fun _ _ => ⟨rfl, rfl⟩⟩))
    · exact .inr (.inr (.inr ⟨.xor, rfl, fun _ _ => ⟨rfl, rfl⟩⟩))
    · exact .inr (.inl ⟨.not, rfl, fun _ => ⟨rfl, rfl⟩⟩)
    · exact .inr (.inr (.inl ⟨.call, rfl, fun _ => ⟨rfl, rfl⟩⟩))
    · exact .inl ⟨.ret, rfl, rfl, rfl⟩
    · exact .inr (.inr (.inr ⟨.inp, rfl, fun _ _ => ⟨rfl, rfl⟩⟩))
    · exact .inr (.inr (.inr ⟨.out, rfl, fun _ _ => ⟨rfl, rfl⟩⟩))
    · exact .inl ⟨.halt, rfl, rfl, rfl⟩

/-! ### Fetch -/

section
variable {s : State}

theorem fetchInstr_n {i : Instr} (hb : s.pc + 1 ≤ Config.memSize) (h : shapeOf (s.mem.get s.pc) = some (.n i)) :
    fetchInstr s = .value i (s.setPc (s.pc + 1)) := by
  simp [fetchInstr, fetch8_in_bounds (show s.pc < Config.memSize by omega), Result.bind, h]

theorem fetchInstr_r {mk : Byte → Instr} (hb : s.pc + 2 ≤ Config.memSize)
    (h : shapeOf (s.mem.get s.pc) = some (.r mk)) :
    fetchInstr s = .value (mk (s.mem.get (s.pc + 1))) (s.setPc (s.pc + 2)) := by
  have h8 : fetch8 (s.setPc (s.pc + 1)) = _ := fetch8_in_bounds (show s.pc + 1 < Config.memSize by omega)
  simp [fetchInstr, fetch8_in_bounds (show s.pc < Config.memSize by omega), Result.bind, h, h8]

theorem fetchInstr_a {mk : Word → Instr} (hb : s.pc + 3 ≤ Config.memSize)
    (h : shapeOf (s.mem.get s.pc) = some (.a mk)) :
    fetchInstr s = .value (mk (s.mem.get16 (s.pc + 1))) (s.setPc (s.pc + 3)) := by
  have h16 : fetch16 (s.setPc (s.pc + 1)) = _ := fetch16_in_bounds (show s.pc + 1 + 2 ≤ Config.memSize by omega)
  simp [fetchInstr, fetch8_in_bounds (show s.pc < Config.memSize by omega), Result.bind, h, h16]

theorem fetchInstr_ri {mk : Byte → Word → Instr} (hb : s.pc + 4 ≤ Config.memSize)
    (h : shapeOf (s.mem.get s.pc) = some (.ri mk)) :
    fetchInstr s = .value (mk (s.mem.get (s.pc + 1)) (s.mem.get16 (s.pc + 2))) (s.setPc (s.pc + 4)) := by
  have h8 : fetch8 (s.setPc (s.pc + 1)) = _ := fetch8_in_bounds (show s.pc + 1 < Config.memSize by omega)
  have h16 : fetch16 (s.setPc (s.pc + 2)) = _ := fetch16_in_bounds (show s.pc + 2 + 2 ≤ Config.memSize by omega)
  simp [fetchInstr, fetch8_in_bounds (show s.pc < Config.memSize by omega), Result.bind, h, h8, h16]

/-- An instruction whose opcode is in memory but whose operand bytes are not: the fault, and where it is raised. -/
theorem fetchInstr_short_r {mk : Byte → Instr} (hb : s.pc + 1 = Config.memSize)
    (h : shapeOf (s.mem.get s.pc) = some (.r mk)) :
    fetchInstr s = .raised ((s.setPc (s.pc + 1)).raise (.pcOutOfBounds (s.pc + 1))) := by
  have h8 : fetch8 (s.setPc (s.pc + 1)) = _ := fetch8_out_of_bounds (show Config.memSize ≤ s.pc + 1 by omega)
  simp [fetchInstr, fetch8_in_bounds (show s.pc < Config.memSize by omega), Result.bind, h, h8]

theorem fetchInstr_short_a {mk : Word → Instr} (hp : s.pc < Config.memSize) (hb : Config.memSize < s.pc + 3)
    (h : shapeOf (s.mem.get s.pc) = some (.a mk)) :
    fetchInstr s = .raised ((s.setPc (s.pc + 1)).raise (.pcOutOfBounds (s.pc + 1))) := by
  have h16 : fetch16 (s.setPc (s.pc + 1)) = _ := fetch16_out_of_bounds (show Config.memSize < s.pc + 1 + 2 by omega)
  simp [fetchInstr, fetch8_in_bounds hp, Result.bind, h, h16]

theorem fetchInstr_short_ri {mk : Byte → Word → Instr} (hp : s.pc < Config.memSize) (hb : Config.memSize < s.pc + 4)
    (h : shapeOf (s.mem.get s.pc) = some (.ri mk)) :
    fetchInstr s =
      if s.pc + 1 = Config.memSize then .raised ((s.setPc (s.pc + 1)).raise (.pcOutOfBounds (s.pc + 1)))
      else .raised ((s.setPc (s.pc + 2)).raise (.pcOutOfBounds (s.pc + 2))) := by
  split
  · rename_i h1
    have h8 : fetch8 (s.setPc (s.pc + 1)) = _ := fetch8_out_of_bounds (show Config.memSize ≤ s.pc + 1 by omega)
    simp [fetchInstr, fetch8_in_bounds hp, Result.bind, h, h8]
  · rename_i h1
    have h8 : fetch8 (s.setPc (s.pc + 1)) = _ := fetch8_in_bounds (show s.pc + 1 < Config.memSize by omega)
    have h16 : fetch16 (s.setPc (s.pc + 2)) = _ := fetch16_out_of_bounds (show Config.memSize < s.pc + 2 + 2 by omega)
    simp [fetchInstr, fetch8_in_bounds hp, Result.bind, h, h8, h16]

theorem fetchInstr_outside (hp : Config.memSize ≤ s.pc) :
    fetchInstr s = .raised ((s.setPc s.pc).raise (.pcOutOfBounds s.pc)) := by
  simp only [fetchInstr, fetch8_out_of_bounds hp, Result.bind]
  rfl

theorem fetchInstr_unknown (hp : s.pc < Config.memSize) (h : shapeOf (s.mem.get s.pc) = none) :
    fetchInstr s = .raised ((s.setPc (s.pc + 1)).raise (.unknownOpcode (s.mem.get s.pc) s.pc)) := by
  simp [fetchInstr, fetch8_in_bounds hp, Result.bind, h]

end

/-- Everything the fetch of one instruction can do: the instruction whose encoding stands at `pc`, the fault of an
unrecognised opcode, or the fault of running past the end of memory at `p`. -/
theorem fetchInstr_cases (s : State) :
    (∃ i : Instr, s.pc + i.length ≤ Config.memSize ∧ s.mem.bytes s.pc i.length = encode i ∧
      fetchInstr s = .value i (s.setPc (s.pc + i.length))) ∨
    (s.pc < Config.memSize ∧ shapeOf (s.mem.get s.pc) = none ∧
      fetchInstr s = .raised ((s.setPc (s.pc + 1)).raise (.unknownOpcode (s.mem.get s.pc) s.pc))) ∨
    (∃ p : Nat, 65534 < p ∧ s.pc ≤ p ∧ p ≤ s.pc + 2 ∧ (p ≤ Config.memSize ∨ p = s.pc) ∧
      fetchInstr s = .raised ((s.setPc p).raise (.pcOutOfBounds p))) := by
  have hm : Config.memSize = 65536 := rfl
  by_cases hpc : s.pc < Config.memSize
  swap
  · exact .inr (.inr ⟨s.pc, by omega, le_refl _, by omega, .inr rfl, fetchInstr_outside (Nat.not_lt.1 hpc)⟩)
  rcases shapeOf_cases (s.mem.get s.pc) with ⟨h, -⟩ | ⟨i, h, he, hl⟩ | ⟨mk, h, hk⟩ | ⟨mk, h, hk⟩ | ⟨mk, h, hk⟩
  · exact .inr (.inl ⟨hpc, h, fetchInstr_unknown hpc h⟩)
  · exact .inl ⟨i, by omega, by rw [hl, he, Memory.bytes_one], by rw [hl]; exact fetchInstr_n hpc h⟩
  · by_cases h1 : s.pc + 2 ≤ Config.memSize
    · obtain ⟨he, hl⟩ := hk (s.mem.get (s.pc + 1))
      exact .inl ⟨mk (s.mem.get (s.pc + 1)), by omega, by rw [hl, he, Memory.bytes_two],
        by rw [hl]; exact fetchInstr_r h1 h⟩
    · exact .inr (.inr ⟨s.pc + 1, by omega, by omega, by omega, .inl (by omega), fetchInstr_short_r (by omega) h⟩)
  · by_cases h1 : s.pc + 3 ≤ Config.memSize
    · obtain ⟨he, hl⟩ := hk (s.mem.get16 (s.pc + 1))
      refine .inl ⟨mk (s.mem.get16 (s.pc + 1)), by omega, ?_, by rw [hl]; exact fetchInstr_a h1 h⟩
      rw [hl, he, Memory.bytes_three, Memory.get16, loByte_wordOfBytes, hiByte_wordOfBytes]
    · exact .inr (.inr ⟨s.pc + 1, by omega, by omega, by omega, .inl (by omega),
        fetchInstr_short_a hpc (by omega) h⟩)
  · by_cases h1 : s.pc + 4 ≤ Config.memSize
    · obtain ⟨he, hl⟩ := hk (s.mem.get (s.pc + 1)) (s.mem.get16 (s.pc + 2))
      refine .inl ⟨mk (s.mem.get (s.pc + 1)) (s.mem.get16 (s.pc + 2)), by omega, ?_,
        by rw [hl]; exact fetchInstr_ri h1 h⟩
      rw [hl, he, Memory.bytes_four, Memory.get16, loByte_wordOfBytes, hiByte_wordOfBytes]
    · have hf := fetchInstr_short_ri hpc (by omega) h
      by_cases h2 : s.pc + 1 = Config.memSize
      · exact .inr (.inr ⟨s.pc + 1, by omega, by omega, by omega, .inl (by omega), by rw [hf, if_pos h2]⟩)
      · exact .inr (.inr ⟨s.pc + 2, by omega, by omega, by omega, .inl (by omega), by rw [hf, if_neg h2]⟩)

/-- The fetch of an instruction that stands whole at `pc`. -/
theorem fetchInstr_of_bytes {s : State} {i : Instr} (hb : s.pc + i.length ≤ Config.memSize)
    (he : s.mem.bytes s.pc i.length = encode i) : fetchInstr s = .value i (s.setPc (s.pc + i.length)) := by
  have hw : ∀ a w, s.mem.get a = loByte w → s.mem.get (a + 1) = hiByte w → s.mem.get16 a = w := by
    intro a w h1 h2
    rw [Memory.get16, h1, h2, wordOfBytes_lo_hi]
  cases i <;>
    simp only [Instr.length, Memory.bytes_one, Memory.bytes_two, Memory.bytes_three, Memory.bytes_four, encode,
      Instr.opcode, Instr.registerByte, Instr.operandWord, Option.toList, List.cons_append, List.nil_append,
      List.append_nil, List.cons.injEq, and_true] at hb he <;>
    first
      | exact fetchInstr_n hb (by rw [he]; rfl)
      | (have h := fetchInstr_r hb (by rw [he.1]; rfl); rwa [he.2] at h)
      | (have h := fetchInstr_a hb (by rw [he.1]; rfl); rwa [hw _ _ he.2.1 he.2.2] at h)
      | (have h := fetchInstr_ri hb (by rw [he.1]; rfl); rwa [he.2.1, hw _ _ he.2.2.1 he.2.2.2] at h)

/-! ### Step -/

/-- Everything a step that answers a next state can do. -/
theorem step_cases {s t : State} (h : step s = .next t) :
    (s.halted = true ∧ t = s) ∨
    (s.halted = false ∧ ∃ i : Instr, s.pc + i.length ≤ Config.memSize ∧ s.mem.bytes s.pc i.length = encode i ∧
      exec i (s.setPc (s.pc + i.length)) = .next t) ∨
    (s.halted = false ∧ s.pc < Config.memSize ∧ shapeOf (s.mem.get s.pc) = none ∧
      t = (s.setPc (s.pc + 1)).raise (.unknownOpcode (s.mem.get s.pc) s.pc)) ∨
    (s.halted = false ∧ ∃ p : Nat, 65534 < p ∧ s.pc ≤ p ∧ p ≤ s.pc + 2 ∧ (p ≤ Config.memSize ∨ p = s.pc) ∧
      t = (s.setPc p).raise (.pcOutOfBounds p)) := by
  cases hh : s.halted with
  | true =>
    rw [step_halted hh] at h
    injection h with h
    exact .inl ⟨rfl, h.symm⟩
  | false =>
    rw [step_running hh] at h
    right
    rcases fetchInstr_cases s with ⟨i, h1, h2, hf⟩ | ⟨h1, h2, hf⟩ | ⟨p, h1, h2, h3, h4, hf⟩
    · rw [hf] at h
      exact .inl ⟨rfl, i, h1, h2, h⟩
    · rw [hf] at h
      injection h with h
      exact .inr (.inl ⟨rfl, h1, h2, h.symm⟩)
    · rw [hf] at h
      injection h with h
      exact .inr (.inr ⟨rfl, p, h1, h2, h3, h4, h.symm⟩)

end Sys2Proof.Machine
end

