-- ==== Sys2Proof/Tests/Slice0.lean ====
section
/-! SUPPORT. Tests. Expected values come from spec/95_test_vectors.md (E, V and P numbers) and from the encodings of
spec/30_encoding.md R81 and R84. The last part gives, for every statement that has hypotheses, values that meet them. -/

namespace Sys2Proof.Machine.Test

/-- A reset machine with `bytes` at address `a` and `pc` there. -/
def bootAt (a : Nat) (bytes : List Byte) : State :=
  { State.reset with pc := a, mem := Memory.setBytes [] a bytes }

/-- `bootAt 0`: the launch state of R234. -/
def boot (bytes : List Byte) : State := bootAt 0 bytes

/-- The next state, where there is one. -/
def next : Answer → Option State
  | .next t => some t
  | .fault _ => none
  | .refused _ => none

/-- `n` steps. -/
def steps : Nat → State → Option State
  | 0, s => some s
  | n + 1, s =>
    match step s with
    | .next t => steps n t
    | .fault _ => none
    | .refused _ => none

/-- One step of a machine with `bytes` at 0 and `x[i] = v`, and what register `i` then holds with `pc`. -/
def regAfter (i : Fin 8) (v : Word) (bytes : List Byte) : Option (Word × Nat) :=
  (next (step ((boot bytes).setReg i v))).map fun t => (t.reg i, t.pc)

/-! ### WellFormed: each check refuses an ill-formed term (R87, R98) -/

theorem test_wf_load : (Instr.load 8 0x1234).wellFormed = false ∧ (Instr.load 7 0x1234).wellFormed = true := by decide
theorem test_wf_add : (Instr.add 9 1).wellFormed = false ∧ (Instr.add 0 1).wellFormed = true := by decide
theorem test_wf_store : (Instr.store 9 0xFFFF).wellFormed = false := by decide
theorem test_wf_jz : (Instr.jz 8 0).wellFormed = false := by decide
theorem test_wf_and : (Instr.and 16 0).wellFormed = false := by decide
theorem test_wf_or : (Instr.or 128 0).wellFormed = false := by decide
theorem test_wf_xor : (Instr.xor 0x0F 0).wellFormed = false := by decide
theorem test_wf_not : (Instr.not 255).wellFormed = false := by decide
theorem test_wf_inp : (Instr.inp 8 0xFF00).wellFormed = false := by decide
theorem test_wf_out : (Instr.out 0xF8 0xFF00).wellFormed = false := by decide
theorem test_wf_without_register : Instr.nop.wellFormed = true ∧ (Instr.jmp 0xFFFF).wellFormed = true ∧
    (Instr.call 0).wellFormed = true ∧ Instr.ret.wellFormed = true ∧ Instr.halt.wellFormed = true := by decide

/-! ### Decoding: every constructor from bytes written out from R81 and R84 -/

theorem test_decode_nop : decode [0x00] = .ok .nop [] := by decide
theorem test_decode_load : decode [0x01, 0x00, 0x34, 0x12] = .ok (.load 0 0x1234) [] := by decide
theorem test_decode_add : decode [0x02, 0x03, 0xFF, 0x00] = .ok (.add 3 0x00FF) [] := by decide
theorem test_decode_store : decode [0x03, 0x01, 0x00, 0x01] = .ok (.store 1 0x0100) [] := by decide
theorem test_decode_jmp : decode [0x04, 0x05, 0x80] = .ok (.jmp 0x8005) [] := by decide
theorem test_decode_jz : decode [0x05, 0x00, 0x13, 0x00] = .ok (.jz 0 0x0013) [] := by decide
theorem test_decode_and : decode [0x06, 0x00, 0x00, 0xFF] = .ok (.and 0 0xFF00) [] := by decide
theorem test_decode_or : decode [0x07, 0x07, 0x55, 0x00] = .ok (.or 7 0x0055) [] := by decide
theorem test_decode_xor : decode [0x08, 0x00, 0xFF, 0x00] = .ok (.xor 0 0x00FF) [] := by decide
theorem test_decode_not : decode [0x09, 0x05, 0xEE] = .ok (.not 5) [0xEE] := by decide
theorem test_decode_call : decode [0x0A, 0x1A, 0x00] = .ok (.call 0x001A) [] := by decide
theorem test_decode_ret : decode [0x0B, 0x01] = .ok .ret [0x01] := by decide
theorem test_decode_inp : decode [0x0C, 0x02, 0x00, 0xFF] = .ok (.inp 2 0xFF00) [] := by decide
theorem test_decode_out : decode [0x0D, 0x00, 0x01, 0xFF] = .ok (.out 0 0xFF01) [] := by decide
theorem test_decode_halt : decode [0xFF] = .ok .halt [] := by decide
theorem test_decode_raw_register_byte : decode [0x01, 0xFF, 0x00, 0x80] = .ok (.load 255 0x8000) [] := by decide
theorem test_decode_unknown : decode [0x0E, 0x00] = .unknownOpcode 0x0E ∧ decode [0xFE] = .unknownOpcode 0xFE := by decide
theorem test_decode_truncated : decode [0x01, 0x00, 0x34] = .truncated ∧ decode [0x04, 0x00] = .truncated ∧
    decode [0x09] = .truncated ∧ decode [] = .truncated := by decide
theorem test_encode_store : encode (.store 1 0x0100) = [0x03, 0x01, 0x00, 0x01] := by decide
theorem test_table_word_load : decodeTableWord 32 0x12340001 = some (.load 0 0x1234) := by decide
theorem test_table_word_opcode_only : decodeTableWord 8 0x0A = some (.call 0) := by decide
theorem test_fetch_word_not :
    (next (step (State.reset.withFetchWord 16 0x0309))).map (fun t => (t.reg 3, t.pc)) = some (0xFFFF, 2) := by decide

/-! ### One step (95_test_vectors.md section 2) -/

theorem test_V10_nop : next (step (boot [0x00, 0xFF])) = some { boot [0x00, 0xFF] with pc := 1 } := by decide
theorem test_V11_halt : next (step (boot [0xFF])) = some { boot [0xFF] with pc := 1, halted := true } := by decide
theorem test_V12_unknown_opcode :
    next (step (boot [0x0E])) =
      some { boot [0x0E] with pc := 1, halted := true, fault := some (.unknownOpcode 0x0E 0) } := by decide
theorem test_V20_load : regAfter 0 0 [0x01, 0x00, 0x34, 0x12] = some (0x1234, 4) := by decide
theorem test_V22_load_register_byte_8 :
    next (step (boot [0x01, 0x08, 0x34, 0x12])) = some { boot [0x01, 0x08, 0x34, 0x12] with pc := 4 } := by decide
theorem test_V23_add_wraps : regAfter 0 0xFFFF [0x02, 0x00, 0x01, 0x00] = some (0x0000, 4) := by decide
theorem test_V29b_add_register_byte_255 : regAfter 7 5 [0x02, 0xFF, 0x01, 0x00] = some (5, 4) := by decide
theorem test_V30_store_at_the_top :
    (next (step ((boot [0x03, 0x00, 0xFE, 0xFF]).setReg 0 0xABCD))).map
      (fun t => (t.mem.get 0xFFFE, t.mem.get 0xFFFF, t.mem.get 0, t.fault)) = some (0xCD, 0xAB, 0x03, none) := by decide
theorem test_V31_store_out_of_bounds :
    (next (step ((boot [0x03, 0x00, 0xFF, 0xFF]).setReg 0 0x1234))).map
      (fun t => (t.mem.get 0xFFFF, t.pc, t.halted, t.fault)) =
      some (0x00, 4, true, some (.storeOutOfBounds 0xFFFF)) := by decide
theorem test_V36_jmp : (next (step (boot [0x04, 0x05, 0x00]))).map (·.pc) = some 5 := by decide
theorem test_V37_jz_taken : regAfter 0 0 [0x05, 0x00, 0x06, 0x00] = some (0, 6) := by decide
theorem test_V39a_jz_tests_all_16_bits : regAfter 0 0x8000 [0x05, 0x00, 0x09, 0x00] = some (0x8000, 4) := by decide
theorem test_V51_and : regAfter 0 0xA5A5 [0x06, 0x00, 0xF0, 0x0F] = some (0x05A0, 4) := by decide
theorem test_V54_or : regAfter 0 0xA5A5 [0x07, 0x00, 0xF0, 0x0F] = some (0xAFF5, 4) := by decide
theorem test_P2_xor : regAfter 0 0x1255 [0x08, 0x00, 0xFF, 0x00] = some (0x12AA, 4) := by decide
theorem test_E4_not : regAfter 0 0x1234 [0x09, 0x00] = some (0xEDCB, 2) := by decide
/-- R162's example: the CALL of P2 at 22 pushes 25. -/
theorem test_P2_call :
    (next (step (bootAt 22 [0x0A, 0x1A, 0x00]))).map
      (fun t => (t.pc, t.sp, t.mem.get 65534, t.mem.get 65535)) = some (0x1A, 65534, 0x19, 0x00) := by decide
/-- R162's example of a call with no room: sp = 0. -/
theorem test_call_overflow :
    (next (step { boot [0x0A, 0x1A, 0x00] with sp := 0 })).map (fun t => (t.pc, t.sp, t.halted, t.fault)) =
      some (3, 0, true, some (.stackOverflow 0)) := by decide
/-- R163's example: the RET of P2 at 30 goes to 25. -/
theorem test_P2_ret :
    (next (step { bootAt 30 [0x0B] with sp := 65534, mem := [(30, 0x0B), (65534, 0x19)] })).map
      (fun t => (t.pc, t.sp, t.mem.get 65534)) = some (0x19, 65536, 0x19) := by decide
theorem test_P4_ret_underflow :
    next (step (boot [0x0B])) =
      some { boot [0x0B] with pc := 1, halted := true, fault := some (.stackUnderflow 65536) } := by decide
/-- R182's example: the byte is zero-extended. -/
theorem test_in_reads_a_byte :
    (next (step { (boot [0x0C, 0x02, 0x00, 0xFF]).setReg 2 0xFFFF with input := [0x41, 0x42] })).map
      (fun t => (t.reg 2, t.input, t.inputCount)) = some (0x0041, [0x42], 1) := by decide
theorem test_V62_in_other_port :
    next (step { boot [0x0C, 0x00, 0x00, 0xFE] with input := [0x7F] }) =
      some { boot [0x0C, 0x00, 0x00, 0xFE] with input := [0x7F], pc := 4 } := by decide
theorem test_V64_out_emits_the_low_byte :
    (next (step ((boot [0x0D, 0x00, 0x00, 0xFF]).setReg 0 0x4241))).map (fun t => (t.output, t.reg 0)) =
      some ([0x41], 0x4241) := by decide
theorem test_out_other_port :
    (next (step ((boot [0x0D, 0x00, 0x01, 0xFF]).setReg 0 0x4241))).map (fun t => (t.output, t.pc)) =
      some ([], 4) := by decide

/-! ### The end of memory (V71 to V78) -/

theorem test_V71_operand_at_65535 :
    (next (step (bootAt 0xFFFD [0x01, 0x00, 0x34]))).map (fun t => (t.pc, t.fault, t.reg 0)) =
      some (65535, some (.pcOutOfBounds 65535), 0) := by decide
theorem test_V73_register_byte_at_65536 :
    (next (step (bootAt 0xFFFF [0x01]))).map (fun t => (t.pc, t.fault)) =
      some (65536, some (.pcOutOfBounds 65536)) := by decide
theorem test_V74_jmp_operand_at_65535 :
    (next (step (bootAt 0xFFFE [0x04, 0x00]))).map (fun t => (t.pc, t.fault)) =
      some (65535, some (.pcOutOfBounds 65535)) := by decide
theorem test_V76_nop_then_off_the_end :
    (steps 2 (bootAt 0xFFFF [0x00])).map (fun t => (t.pc, t.fault)) =
      some (65536, some (.pcOutOfBounds 65536)) := by decide
theorem test_V77_halt_at_65535 :
    (next (step (bootAt 0xFFFF [0xFF]))).map (fun t => (t.pc, t.halted, t.fault)) = some (65536, true, none) := by decide

/-! ### The host's operations and the assembler -/

theorem test_V91_load :
    load [0x01, 0x02, 0x03] State.reset = .ok { State.reset with mem := [(0, 0x01), (1, 0x02), (2, 0x03)] } := by decide
theorem test_lifecycle :
    Driver.reset ⟨.powerOn, boot [0x0E]⟩ = .done ⟨.ready, State.reset⟩ ∧
    Driver.load [0xFF] ⟨.ready, State.reset⟩ = .done ⟨.loaded, boot [0xFF]⟩ ∧
    Driver.begin [0x41] ⟨.loaded, boot [0xFF]⟩ = .done ⟨.running, { boot [0xFF] with input := [0x41] }⟩ ∧
    Driver.step ⟨.running, boot [0xFF]⟩ = .done ⟨.ended, { boot [0xFF] with pc := 1, halted := true }⟩ ∧
    Driver.load [] ⟨.ended, State.reset⟩ = .refused .loadAfterSteps := by decide
/-- V10 as a run. -/
theorem test_run_to_halt :
    run 3 (boot [0x00, 0xFF]) = .halted { boot [0x00, 0xFF] with pc := 2, halted := true } ∧
    run 1 (boot [0x00, 0xFF]) = .outOfFuel { boot [0x00, 0xFF] with pc := 1 } := by decide
/-- The first line of P1, and E1. -/
theorem test_assemble_line :
    Assembler.line ['L', 'O', 'A', 'D', ' ', 'R', '0', ',', '0', 'x', '1', '2', '3', '4'] =
      .ok [0x01, 0x00, 0x34, 0x12] ∧
    Assembler.line ['n', 'o', 't', ' ', 'r', '5', ' ', ';', 'x'] = .ok [0x09, 0x05] ∧
    Assembler.line ['N', 'O', 'T', ' ', 'R', '8'] = .error .invalidRegister ∧
    Assembler.line ['A', 'D', 'D', ' ', 'R', '0', ',', '-', '1'] = .error .invalidImmediate ∧
    Assembler.line ['R', 'E', 'T', ' ', 'R', '0'] = .error .wrongOperandCount := by decide
/-- R99: unparsable in every reading, or out of range in every reading, is invalid; N14: `0X` and a leading zero are open. -/
theorem test_immediate_leading_zero :
    Assembler.immediateToken ['0', 'b', '1', '0', '1'] = .error .invalidImmediate ∧
    Assembler.immediateToken ['0', 'q'] = .error .invalidImmediate ∧
    Assembler.immediateToken ['0', '-', '1'] = .error .invalidImmediate ∧
    Assembler.immediateToken ['0', 'X'] = .error .invalidImmediate ∧
    Assembler.immediateToken ['0', 'X', 'G'] = .error .invalidImmediate ∧
    Assembler.immediateToken ['0', '2', '0', '0', '0', '0', '0'] = .error .invalidImmediate ∧
    Assembler.immediateToken ['0', 'X', '1', 'F'] = .openForm ∧ Assembler.immediateToken ['0', '0', '8'] = .openForm ∧
    Assembler.immediateToken ['0', '1', '7', '7', '7', '7', '7'] = .openForm :=
  ⟨rfl, rfl, rfl, rfl, rfl, rfl, rfl, rfl, rfl⟩
theorem test_assemble_source :
    Assembler.assemble ['N', 'O', 'P', '\n', '\n', ';', 'c', '\n', 'H', 'A', 'L', 'T'] = .image [0x00, 0xFF] ∧
    Assembler.assemble ['N', 'O', 'P', '\n', 'M', 'O', 'V'] = .encodeError 2 .unknownMnemonic := by decide

/-! ### Witnesses: the hypotheses of each statement can be met -/

/-- The bytes are at `pc`, at the bottom of memory and flush with its top; and an instruction of that opcode is cut short
with `pc` at 65536. The `runsAs` and `fetchFaults` clauses of the instruction statements take these as hypotheses. -/
def fetchable (bytes : List Byte) : Prop :=
  (bootAt 0 bytes).fetches bytes ∧ (bootAt (65536 - bytes.length) bytes).fetches bytes ∧
  (bootAt 65536 []).cutShort (bytes.headD 0) bytes.length

/-- With its opcode at 65535 an instruction of two or more bytes is cut short. -/
def cutAfterOpcode (op : Byte) (len : Nat) : Prop := (bootAt 65535 [op]).cutShort op len

theorem witness_NopOnlyAdvancesPc : fetchable [0x00] := by simp only [fetchable, State.fetches, State.cutShort]; decide
theorem witness_HaltStopsWithoutFault : fetchable [0xFF] := by simp only [fetchable, State.fetches, State.cutShort]; decide
theorem witness_LoadWritesTheImmediate :
    fetchable [0x01, 0x07, 0x34, 0x12] ∧ cutAfterOpcode 0x01 4 ∧ (0x1234 : Word).toNat = 0x12 * 256 + 0x34 ∧
    (7 : Fin 8).val = (7 : Byte).toNat := by
  simp only [fetchable, cutAfterOpcode, State.fetches, State.cutShort]; decide
theorem witness_AddWrapsModulo65536 :
    fetchable [0x02, 0x00, 0xFF, 0xFF] ∧ cutAfterOpcode 0x02 4 ∧ (0 : Fin 8).val = (0 : Byte).toNat := by
  simp only [fetchable, cutAfterOpcode, State.fetches, State.cutShort]; decide
theorem witness_AndOrXorActOnEachBit :
    (fetchable [0x06, 0x00, 0x00, 0xFF] ∧ cutAfterOpcode 0x06 4) ∧ (fetchable [0x07, 0x00, 0x00, 0xFF] ∧ cutAfterOpcode 0x07 4) ∧
    (fetchable [0x08, 0x00, 0x00, 0xFF] ∧ cutAfterOpcode 0x08 4) ∧ (7 : Fin 8).val = (7 : Byte).toNat := by
  simp only [fetchable, cutAfterOpcode, State.fetches, State.cutShort]; decide
theorem witness_NotComplementsTheRegister :
    fetchable [0x09, 0x07] ∧ cutAfterOpcode 0x09 2 ∧ (7 : Fin 8).val = (7 : Byte).toNat := by
  simp only [fetchable, cutAfterOpcode, State.fetches, State.cutShort]; decide
/-- The invalid byte 8, the address 0xFFFF with the register byte 7, and the address 0xFFFE. -/
theorem witness_StoreWritesBothBytesOrFaults :
    fetchable [0x03, 0x07, 0xFE, 0xFF] ∧ cutAfterOpcode 0x03 4 ∧ 8 ≤ (8 : Byte).toNat ∧ (7 : Byte).toNat < 8 ∧
    (0xFFFF : Word).toNat = 0xFFFF ∧ (7 : Fin 8).val = (7 : Byte).toNat ∧ (0xFFFE : Word).toNat ≤ 0xFFFE ∧
    State.reset.mem.wf = true := by
  simp only [fetchable, cutAfterOpcode, State.fetches, State.cutShort]; decide
theorem witness_JmpTransfersToTheOperand : fetchable [0x04, 0xFF, 0xFF] ∧ cutAfterOpcode 0x04 3 := by
  simp only [fetchable, cutAfterOpcode, State.fetches, State.cutShort]; decide
theorem witness_JzTransfersOnAZeroRegister :
    fetchable [0x05, 0x00, 0x13, 0x00] ∧ cutAfterOpcode 0x05 4 ∧
    ((7 : Fin 8).val = (7 : Byte).toNat ∧ (State.reset.reg 7).toNat = 0) ∧
    ((State.reset.setReg 7 0x8000).reg 7).toNat ≠ 0 ∧ 8 ≤ (8 : Byte).toNat := by
  simp only [fetchable, cutAfterOpcode, State.fetches, State.cutShort]; decide
/-- sp = 1 overflows, sp = 2 and 65536 do not, sp = 65537 is the model's stop. -/
theorem witness_CallPushesThePostFetchPc :
    fetchable [0x0A, 0x1A, 0x00] ∧ cutAfterOpcode 0x0A 3 ∧ { State.reset with sp := 1 }.sp < 2 ∧
    2 ≤ { State.reset with sp := 2 }.sp ∧ State.reset.sp ≤ 65536 ∧ State.reset.mem.wf = true ∧
    65536 < { State.reset with sp := 65537 }.sp := by
  simp only [fetchable, cutAfterOpcode, State.fetches, State.cutShort]; decide
/-- sp = 65535 underflows and sp = 65534 does not. -/
theorem witness_RetPopsThePc :
    fetchable [0x0B] ∧ 65534 < { State.reset with sp := 65535 }.sp ∧ { State.reset with sp := 65534 }.sp ≤ 65534 := by
  simp only [fetchable, State.fetches, State.cutShort]; decide
theorem witness_InReadsTheNextSuppliedByte :
    fetchable [0x0C, 0x02, 0x00, 0xFF] ∧ cutAfterOpcode 0x0C 4 ∧ (7 : Byte).toNat < 8 ∧ State.reset.input = [] ∧
    { State.reset with input := [0x41] }.input = 0x41 :: [] ∧ 8 ≤ (8 : Byte).toNat := by
  simp only [fetchable, cutAfterOpcode, State.fetches, State.cutShort]; decide
theorem witness_OutEmitsTheLowByte :
    fetchable [0x0D, 0x02, 0x00, 0xFF] ∧ cutAfterOpcode 0x0D 4 ∧ (7 : Fin 8).val = (7 : Byte).toNat ∧ 8 ≤ (8 : Byte).toNat := by
  simp only [fetchable, cutAfterOpcode, State.fetches, State.cutShort]; decide
theorem witness_OtherPortsHaveNoEffect :
    (0xFF01 : Word) ≠ 0xFF00 ∧ (0xFF : Byte).toNat * 256 + (0x01 : Byte).toNat ≠ 0xFF00 ∧
    (boot [0x0C, 0x00, 0x01, 0xFF]).fetches [0x0C, 0x00, 0x01, 0xFF] ∧
    (boot [0x0D, 0x00, 0x01, 0xFF]).fetches [0x0D, 0x00, 0x01, 0xFF] := by
  simp only [State.fetches]; decide
theorem witness_InvalidRegisterByteTurnsTheEffectOff :
    (Instr.store 8 0xFFFF).registerByte = some 8 ∧ 8 ≤ (8 : Byte).toNat ∧
    (boot (encode (.store 8 0xFFFF))).fetches (encode (.store 8 0xFFFF)) := by
  simp only [State.fetches]; decide
theorem witness_SubtractionAndNegationByAdd : (7 : Fin 8).val = (7 : Byte).toNat ∧ 65535 < 65536 := by decide

theorem witness_EncodeDecodeRoundTrip : decode [0x09, 0x05, 0xEE] = .ok (.not 5) [0xEE] := by decide
theorem witness_OpcodeMapOfTheFifteen : (0xFFFE : Word).toNat = (0xFF : Byte).toNat * 256 + (0xFE : Byte).toNat := by decide
theorem witness_OtherOpcodesFault :
    (0x0E ≤ (0x0E : Byte).toNat ∧ (0x0E : Byte).toNat ≤ 0xFE ∧ (boot [0x0E]).fetches [0x0E]) ∧
    (0x0E ≤ (0xFE : Byte).toNat ∧ (0xFE : Byte).toNat ≤ 0xFE ∧ (bootAt 65535 [0xFE]).fetches [0xFE]) := by
  simp only [State.fetches]; decide
theorem witness_OpcodeAloneGivesLength :
    decode (0xFF :: []) = .ok .halt [] ∧ decode (0x09 :: [0xFF]) = .ok (.not 0xFF) [] ∧
    decode (0x0A :: [0, 0]) = .ok (.call 0) [] ∧ decode (0x0D :: [0, 0, 0]) = .ok (.out 0 0) [] ∧
    decode (0x0E :: []) = .unknownOpcode 0x0E ∧ (boot [0x0E]).fetches [0x0E] := by
  simp only [State.fetches]; decide
theorem witness_PlacedInstructionRunsNext :
    State.reset.mem.wf = true ∧ State.reset.pc + (Instr.load 0 0).length ≤ Config.memSize ∧
    { State.reset with pc := 65532 }.pc + (Instr.load 0 0).length ≤ Config.memSize := by decide
theorem witness_MemWriteWritesExactlyItsBytes :
    Memory.wf [(0, 1)] = true ∧ 65535 < Config.memSize ∧ 65534 + 1 < Config.memSize := by decide
theorem witness_CanonicalMemoriesAreEqualData :
    Memory.wf [(65535, 1)] = true ∧ ∀ a : Nat, a < Config.memSize → Memory.get [(65535, 1)] a = Memory.get [(65535, 1)] a :=
  ⟨by decide, fun _ _ => rfl⟩
theorem witness_Fetch8ReadsOneByteOrFaults :
    65536 ≤ { State.reset with pc := 65536 }.pc ∧ { State.reset with pc := 65535 }.pc < 65536 := by decide
theorem witness_Fetch16ReadsOneWordOrFaults :
    65534 < { State.reset with pc := 65535 }.pc ∧ { State.reset with pc := 65534 }.pc ≤ 65534 := by decide
theorem witness_StoreIsSeenByTheNextFetch :
    State.reset.mem.wf = true ∧ (7 : Fin 8).val = (7 : Byte).toNat ∧ (65534 : Word).toNat ≤ 65534 := by decide
theorem witness_StepRunsTheDecodedInstruction :
    (bootAt 65534 [0x09, 0x00]).halted = false ∧ decode (bootAt 65534 [0x09, 0x00]).window = .ok (.not 0) [] := by decide
/-- `pc` at 65536, a NOT at 65535, a JMP at 65534, a LOAD at 65535 and at 65533. -/
theorem witness_FetchPastTheEndFaults :
    decode (bootAt 65536 []).window = .truncated ∧ decode (bootAt 65535 [0x09]).window = .truncated ∧
    decode (bootAt 65534 [0x04]).window = .truncated ∧ decode (bootAt 65535 [0x01]).window = .truncated ∧
    decode (bootAt 65533 [0x01]).window = .truncated ∧ (bootAt 65533 [0x01]).halted = false := by decide
theorem witness_UnknownOpcodeHaltsAfterItsByte :
    (bootAt 65535 [0xFE]).fetches [0xFE] ∧ 0x0E ≤ (0xFE : Byte).toNat ∧ (0xFE : Byte).toNat ≤ 0xFE := by
  simp only [State.fetches]; decide
theorem witness_HaltedMachineNeverChanges : { State.reset with halted := true }.halted = true := by decide

/-- Also the witness of `ResetIsLegal`'s invariant in a state that is not reset: a machine halted by a fault. -/
theorem witness_EveryStepCompletesInALegalState :
    { boot [0x0B] with pc := 1, halted := true, fault := some (.stackUnderflow 65536) }.Inv where
  memory := by decide
  pcBound := by decide
  spBound := by decide
  spEven := by decide
  faultHalts := fun _ => rfl
  faultFits := by intro f hf; injection hf with hf; subst hf; exact ⟨rfl, rfl⟩

/-- Each reachable row of the table: a step from a running machine that records the fault. -/
theorem witness_FaultsArePrecise :
    ((bootAt 65536 []).halted = false ∧ (bootAt 65536 []).fault = none) ∧
    (next (step (bootAt 65536 []))).map (·.fault) = some (some (.pcOutOfBounds 65536)) ∧
    (next (step (boot [0x0E]))).map (·.fault) = some (some (.unknownOpcode 0x0E 0)) ∧
    (next (step (boot [0x03, 0x00, 0xFF, 0xFF]))).map (·.fault) = some (some (.storeOutOfBounds 0xFFFF)) ∧
    (next (step { boot [0x0A, 0x00, 0x00] with sp := 1 })).map (·.fault) = some (some (.stackOverflow 1)) ∧
    (next (step { boot [0x0B] with sp := 65535 })).map (·.fault) = some (some (.stackUnderflow 65535)) := by decide
theorem witness_FaultsEachInstructionCanRaise :
    State.reset.fault = none ∧
    (next (exec (.store 7 0xFFFF) State.reset)).map (·.fault) = some (some (.storeOutOfBounds 0xFFFF)) ∧
    (next (exec (.call 0) { State.reset with sp := 0 })).map (·.fault) = some (some (.stackOverflow 0)) ∧
    (next (exec .ret State.reset)).map (·.fault) = some (some (.stackUnderflow 65536)) := by decide
/-- Only a state no run reaches meets the hypotheses: a halted one that holds the record already. -/
theorem witness_JumpOutOfBoundsIsNeverRaised :
    (next (step { State.reset with halted := true, fault := some (.jumpOutOfBounds 0x04 0) })).map (·.fault) =
      some (some (.jumpOutOfBounds 0x04 0)) := by decide
theorem witness_OnlyCallAndRetMoveSp :
    (next (step (boot [0x0A, 0x00, 0x00]))).map (·.sp) = some 65534 ∧
    (next (step { boot [0x0B] with sp := 65534 })).map (·.sp) = some 65536 := by decide
theorem witness_OnlyStoreAndCallWriteMemory :
    (next (step ((boot [0x03, 0x00, 0x00, 0x01]).setReg 0 0xBEEF))).map (fun t => (t.mem.get 0x100, t.mem.get 0x101)) =
      some (0xEF, 0xBE) ∧
    (next (step (boot [0x0A, 0x00, 0x00]))).map (fun t => t.mem.get 65534) = some 0x03 := by decide
theorem witness_OnlyTheNamedRegisterChanges :
    (next (step (boot [0x01, 0x07, 0x34, 0x12]))).map (fun t => t.reg 7) = some 0x1234 ∧
    (next (step { boot [0x0C, 0x00, 0x00, 0xFF] with input := [0x41] })).map (fun t => t.reg 0) = some 0x41 := by decide
theorem witness_OnlyHaltAndFaultsStopTheMachine :
    (boot [0xFF]).fault = none ∧ (boot [0xFF]).halted = false ∧ (next (step (boot [0xFF]))).map (·.halted) = some true ∧
    { State.reset with halted := true }.halted = true := by decide
/-- One that leaves the status, one that sets `halted`, one that also writes a record. -/
theorem witness_StatusIsNeverRead :
    (next (exec (.not 0) State.reset)).map (fun t => (t.halted, t.fault)) = some (false, none) ∧
    (next (exec .halt State.reset)).map (fun t => (t.halted, t.fault)) = some (true, none) ∧
    (next (exec .ret State.reset)).map (fun t => (t.halted, t.fault)) = some (true, some (.stackUnderflow 65536)) := by
  decide
theorem witness_PcAfterEachInstruction :
    (boot (encode (.jz 0 6))).fetches (encode (.jz 0 6)) ∧
    (next (step (boot (encode (.jz 0 6))))).map (fun t => (t.pc, t.fault)) = some (6, none) ∧
    (next (step { boot (encode .ret) with sp := 65534 })).map (fun t => (t.pc, t.fault)) = some (0, none) := by
  simp only [State.fetches]; decide
theorem witness_OnlyInAndOutTouchTheStreams :
    (next (step (boot [0x0D, 0x00, 0x00, 0xFF]))).map (·.output) = some [0x00] ∧
    (next (step { boot [0x0C, 0x00, 0x00, 0xFF] with input := [0x41] })).map (fun t => (t.input, t.inputCount)) =
      some ([], 1) := by decide
/-- Two CALLs of address 0 at address 0: after the first, memory still holds the program. -/
theorem witness_ConsecutiveCallsDecrementSp :
    (boot [0x0A, 0x00, 0x00]).mem.get (boot [0x0A, 0x00, 0x00]).pc = 0x0A ∧
    (next (step (boot [0x0A, 0x00, 0x00]))).map (fun t => (t.halted, t.mem.get t.pc, t.fault)) = some (false, 0x0A, none) ∧
    (steps 2 (boot [0x0A, 0x00, 0x00])).map (fun t => (t.sp, t.fault)) = some (65532, none) := by decide
/-- sp = 2, the last that can push, with the state right after the CALL as the body's. -/
theorem witness_CallThenRetResumesAfterTheCall :
    State.reset.mem.wf = true ∧ 2 ≤ { State.reset with sp := 2 }.sp ∧ { State.reset with sp := 2 }.sp ≤ 65536 ∧
    (next (exec (.call 5) { State.reset with sp := 2 })).map (fun t => (t.sp, t.pc)) = some (0, 5) := by decide
theorem witness_LoadWritesTheImage : State.reset.mem.wf = true ∧ [(0x01 : Byte), 0x02].length ≤ 65536 := by decide
theorem witness_TooLongImageIsRejected :
    ∃ image : List Byte, image.head? = some 0xFF ∧ 65536 < image.length :=
  ⟨0xFF :: List.replicate 65536 0xFF, rfl, by rw [List.length_cons, List.length_replicate]; exact Nat.lt_succ_self _⟩
theorem witness_LaunchState : Phase.ended ≠ .running ∧ ([] : List Byte).length ≤ 65536 ∧
    ∀ image : List Byte, image = List.replicate 65536 0xFF → image.length ≤ 65536 :=
  ⟨by decide, by decide, fun _ h => Nat.le_of_eq (h ▸ List.length_replicate)⟩
theorem witness_OutOfSequenceOperationsAreRefused :
    Phase.loaded ≠ .ready ∧ Phase.ready ≠ .loaded ∧ Phase.ended ≠ .running ∧ Phase.running = .running := by decide
theorem witness_RunStopsExactlyWhenHalted :
    run 1 (boot [0xFF]) = .halted { boot [0xFF] with pc := 1, halted := true } ∧
    run 1 (boot [0x04, 0x00, 0x00]) = .outOfFuel (boot [0x04, 0x00, 0x00]) ∧ 1 ≤ 2 := by decide
theorem witness_RegisterTokensAreR0ToR7 :
    Assembler.registerToken ['r', '7'] = .ok 7 ∧ Assembler.registerToken ['R', '8'] = .error .invalidRegister := by decide
theorem witness_DecimalTokensMustFitSixteenBits :
    49 ≤ '6'.toNat ∧ (∀ d : Char, d ∈ ['6', '5', '5', '3', '6'] → 48 ≤ d.toNat ∧ d.toNat ≤ 57) ∧
    Assembler.immediateToken ['6', '5', '5', '3', '5'] = .ok 0xFFFF ∧
    Assembler.immediateToken ['6', '5', '5', '3', '6'] = .error .invalidImmediate :=
  ⟨by decide, by simp, rfl, rfl⟩
/-- '0b101' with the letter 'b'; '0x' with nothing after it, and '0xG'. -/
theorem witness_UnparsableTokensAreInvalid :
    'b' ∈ ['0', 'b', '1', '0', '1'] ∧ 57 < 'b'.toNat ∧
    ∀ rest : List Char, ['0', 'b', '1', '0', '1'] ≠ '0' :: 'x' :: rest ∧ ['0', 'b', '1', '0', '1'] ≠ '0' :: 'X' :: rest :=
  ⟨by decide, by decide, fun _ => ⟨by simp, by simp⟩⟩
theorem witness_UnparsableTokensAreInvalid_prefixed :
    'G' ∈ ['G'] ∧ ¬ (48 ≤ 'G'.toNat ∧ 'G'.toNat ≤ 57) ∧ ¬ (65 ≤ 'G'.toNat ∧ 'G'.toNat ≤ 70) ∧
    ¬ (97 ≤ 'G'.toNat ∧ 'G'.toNat ≤ 102) ∧ Assembler.immediateToken ['0', 'x', 'G'] = .error .invalidImmediate ∧
    Assembler.immediateToken ['0', 'x'] = .error .invalidImmediate := by decide

end Sys2Proof.Machine.Test
end

/-! ## Proofs of the family 10_state: what one instruction can do, and what a step keeps -/

/-! ### Instructions in memory -/

namespace Sys2Proof

/-- What LOAD, ADD, AND, OR, XOR and NOT make of the register they name; `none` for every other instruction (R22). -/
def Instr.registerUpdate : Instr → Option (Word → Word)
  | .load _ imm => some fun _ => imm
  | .add _ imm => some fun x => Machine.addWord x imm
  | .and _ imm => some fun x => x &&& imm
  | .or _ imm => some fun x => x ||| imm
  | .xor _ imm => some fun x => x ^^^ imm
  | .not _ => some fun x => x ^^^ 0xFFFF
  | _ => none

theorem Instr.opcode_of_registerUpdate {i : Instr} {f : Word → Word} (h : i.registerUpdate = some f) :
    i.opcode = 0x01 ∨ i.opcode = 0x02 ∨ i.opcode = 0x06 ∨ i.opcode = 0x07 ∨ i.opcode = 0x08 ∨ i.opcode = 0x09 := by
  cases i with
  | load | add | and | or | xor | not => simp [Instr.opcode]
  | _ => cases h

theorem Instr.opcode_eq_halt_iff {i : Instr} : i.opcode = 0xFF ↔ i = .halt := by
  cases i <;> simp [Instr.opcode]

theorem Instr.length_encode (i : Instr) : (encode i).length = i.length := by
  cases i <;> rfl

namespace Machine

section
variable {m : Memory} {a : Nat} {i : Instr} (h : m.bytes a i.length = encode i)
include h

/-- The first byte of an instruction in memory is its opcode (R81). -/
theorem Memory.get_of_encoded : m.get a = i.opcode := by
  have hhead : (m.bytes a i.length).head? = some i.opcode := by rw [h]; rfl
  cases i <;> exact Option.some.inj hhead

/-- The second byte of formats R and RI is the register byte (R81). -/
theorem Memory.get_succ_of_encoded {r : Byte} (hr : i.registerByte = some r) : m.get (a + 1) = r := by
  have hsnd : (m.bytes a i.length)[1]? = some r := by
    rw [h, encode, hr]; rfl
  cases i with
  | nop | jmp | call | ret | halt => cases hr
  | _ => exact Option.some.inj hsnd

/-- The word after the register byte of format RI is the operand (R81). -/
theorem Memory.get16_of_encoded {r : Byte} {w : Word} (hr : i.registerByte = some r) (hw : i.operandWord = some w) :
    m.get16 (a + 2) = w := by
  have hlo : (m.bytes a i.length)[2]? = some (loByte w) := by rw [h, encode, hr, hw]; rfl
  have hhi : (m.bytes a i.length)[3]? = some (hiByte w) := by rw [h, encode, hr, hw]; rfl
  cases i with
  | nop | jmp | call | ret | halt => cases hr
  | not => cases hw
  | _ => rw [Memory.get16, ← wordOfBytes_lo_hi w, ← Option.some.inj hlo, ← Option.some.inj hhi]

end

/-- A running machine with the bytes of `i` at `pc` runs `i` with `pc` moved past it (R89). -/
theorem step_of_fetches {s : State} {i : Instr} (h : s.fetches (encode i)) :
    step s = exec i (s.setPc (s.pc + i.length)) := by
  obtain ⟨hrun, hbound, hbytes⟩ := h
  rw [Instr.length_encode] at hbound hbytes
  rw [step_running hrun, fetchInstr_of_bytes hbound hbytes, Result.andThen_value]

/-! ### The effect of one instruction -/

theorem whenValid_of_valid {r : Byte} (h : r.toNat < 8) (s : State) (body : Fin 8 → Answer) :
    whenValid r s body = body ⟨r.toNat, h⟩ := by
  simp [whenValid, regIndex_of_valid h]

theorem whenValid_of_invalid {r : Byte} (h : 8 ≤ r.toNat) (s : State) (body : Fin 8 → Answer) :
    whenValid r s body = .next s := by
  simp [whenValid, regIndex_of_invalid (Nat.not_lt.2 h)]

theorem exec_of_registerUpdate {i : Instr} {r : Byte} {f : Word → Word} (hr : i.registerByte = some r)
    (hf : i.registerUpdate = some f) (s : State) : exec i s = updateReg r f s := by
  cases i with
  | load | add | and | or | xor | not => cases hr; cases hf; rfl
  | _ => cases hf

/-- A register byte 8 to 255 turns the whole effect off (R87, D11). -/
theorem exec_of_invalid_register {i : Instr} {r : Byte} (hr : i.registerByte = some r) (h : 8 ≤ r.toNat) (s : State) :
    exec i s = .next s := by
  cases i with
  | nop | jmp | call | ret | halt => cases hr
  | inp | out => cases hr; simp only [exec, execIn, execOut, whenValid_of_invalid h, ite_self]
  | _ => cases hr; exact whenValid_of_invalid h s _

/-- `Effect s i t`: the instruction `i`, run in the state `s` whose `pc` is the post-fetch value, leaves `t`. One
constructor for each way an instruction can end; `exec_eq_next_iff` ties it to `exec`. -/
inductive Effect (s : State) : Instr → State → Prop
  | nop : Effect s .nop s
  | halt : Effect s .halt { s with halted := true }
  | update {i : Instr} {r : Byte} {f : Word → Word} (hr : i.registerByte = some r) (hf : i.registerUpdate = some f)
      (h : r.toNat < 8) : Effect s i (s.setReg ⟨r.toNat, h⟩ (f (s.reg ⟨r.toNat, h⟩)))
  | store {r : Byte} {addr : Word} (h : r.toNat < 8) (hb : addr.toNat + 2 ≤ Config.memSize) :
      Effect s (.store r addr) (s.write16 addr.toNat (s.reg ⟨r.toNat, h⟩))
  | storeFault {r : Byte} {addr : Word} (h : r.toNat < 8) (hb : Config.memSize < addr.toNat + 2) :
      Effect s (.store r addr) (s.raise (.storeOutOfBounds addr))
  | jmp {addr : Word} : Effect s (.jmp addr) (s.setPc addr.toNat)
  | jzTaken {r : Byte} {addr : Word} (h : r.toNat < 8) (hz : s.reg ⟨r.toNat, h⟩ = 0) :
      Effect s (.jz r addr) (s.setPc addr.toNat)
  | jzNotTaken {r : Byte} {addr : Word} (h : r.toNat < 8) (hz : s.reg ⟨r.toNat, h⟩ ≠ 0) : Effect s (.jz r addr) s
  | call {addr : Word} (hlo : 2 ≤ s.sp) (hhi : s.sp ≤ Config.memSize) :
      Effect s (.call addr)
        (({ s with sp := s.sp - 2 }.write16 (s.sp - 2) (BitVec.ofNat 16 s.pc)).setPc addr.toNat)
  | callFault {addr : Word} (h : s.sp < 2) : Effect s (.call addr) (s.raise (.stackOverflow s.sp))
  | ret (h : s.sp + 2 ≤ Config.memSize) : Effect s .ret ({ s with sp := s.sp + 2 }.setPc (s.mem.get16 s.sp).toNat)
  | retFault (h : Config.memSize < s.sp + 2) : Effect s .ret (s.raise (.stackUnderflow s.sp))
  | inp {r : Byte} (h : r.toNat < 8) :
      Effect s (.inp r Config.ioPort) (s.consumeInput.setReg ⟨r.toNat, h⟩ (s.nextInput.setWidth 16))
  | inpOther {r : Byte} {port : Word} (hp : port ≠ Config.ioPort) : Effect s (.inp r port) s
  | out {r : Byte} (h : r.toNat < 8) : Effect s (.out r Config.ioPort) (s.emit (loByte (s.reg ⟨r.toNat, h⟩)))
  | outOther {r : Byte} {port : Word} (hp : port ≠ Config.ioPort) : Effect s (.out r port) s
  /-- The register byte names no register. -/
  | invalid {i : Instr} {r : Byte} (hr : i.registerByte = some r) (h : 8 ≤ r.toNat) : Effect s i s

theorem Effect.exec_eq {s t : State} {i : Instr} (h : Effect s i t) : exec i s = .next t := by
  cases h with
  | nop | halt => rfl
  | invalid hr h => exact exec_of_invalid_register hr h s
  | update hr hf h => rw [exec_of_registerUpdate hr hf, updateReg, whenValid_of_valid h]
  | store h hb =>
    have hfits : ¬ Config.memSize - 2 < _ := Nat.not_lt.2 (Nat.le_sub_of_add_le hb)
    rw [exec, execStore, whenValid_of_valid h, if_neg hfits]
  | storeFault h hb =>
    have hout : Config.memSize - 2 < _ := Nat.sub_lt_right_of_lt_add (by decide) hb
    rw [exec, execStore, whenValid_of_valid h, if_pos hout]
  | jmp => exact jumpTo_eq _ _ _
  | jzTaken h hz => rw [exec, execJz, whenValid_of_valid h, hz]; exact jumpTo_eq _ _ _
  | jzNotTaken h hz => rw [exec, execJz, whenValid_of_valid h, isZero, if_neg (by simpa using hz)]
  | call hlo hhi => rw [exec, execCall, push16_in_bounds _ hlo hhi, Result.andThen_value, jumpTo_eq]
  | callFault h => rw [exec, execCall, push16_overflow _ h, Result.andThen_raised]
  | ret h => rw [exec, execRet, pop16_in_bounds h, Result.andThen_value]
  | retFault h => rw [exec, execRet, pop16_underflow h, Result.andThen_raised]
  | inp h => rw [exec, execIn, if_pos rfl, whenValid_of_valid h]
  | out h => rw [exec, execOut, if_pos rfl, whenValid_of_valid h]
  | inpOther hp => rw [exec, execIn, if_neg hp]
  | outOther hp => rw [exec, execOut, if_neg hp]

/-- Every instruction ends in one of those ways, but a CALL whose push would lie outside memory (log 5). -/
theorem exists_effect_or_push_outside (i : Instr) (s : State) :
    (∃ t, Effect s i t) ∨ (∃ addr, i = .call addr ∧ Config.memSize < s.sp) := by
  have hvalid : ∀ r, i.registerByte = some r → (∃ t, Effect s i t) ∨ r.toNat < 8 := fun r hr =>
    (Nat.lt_or_ge r.toNat 8).symm.imp (fun h => ⟨s, .invalid hr h⟩) id
  cases i with
  | nop => exact .inl ⟨_, .nop⟩
  | halt => exact .inl ⟨_, .halt⟩
  | jmp addr => exact .inl ⟨_, .jmp⟩
  | load r _ | add r _ | and r _ | or r _ | xor r _ | not r =>
    exact .inl ((hvalid r rfl).elim id fun h => ⟨_, .update rfl rfl h⟩)
  | store r addr =>
    refine .inl ((hvalid r rfl).elim id fun h => ?_)
    rcases Nat.lt_or_ge Config.memSize (addr.toNat + 2) with hb | hb
    · exact ⟨_, .storeFault h hb⟩
    · exact ⟨_, .store h hb⟩
  | jz r addr =>
    refine .inl ((hvalid r rfl).elim id fun h => ?_)
    by_cases hz : s.reg ⟨r.toNat, h⟩ = 0
    · exact ⟨_, .jzTaken h hz⟩
    · exact ⟨_, .jzNotTaken h hz⟩
  | call addr =>
    rcases Nat.lt_or_ge s.sp 2 with hlo | hlo
    · exact .inl ⟨_, .callFault hlo⟩
    · exact (Nat.lt_or_ge Config.memSize s.sp).symm.imp (fun hhi => ⟨_, .call hlo hhi⟩) fun hhi => ⟨addr, rfl, hhi⟩
  | ret =>
    rcases Nat.lt_or_ge Config.memSize (s.sp + 2) with h | h
    · exact .inl ⟨_, .retFault h⟩
    · exact .inl ⟨_, .ret h⟩
  | inp r port =>
    refine .inl ((hvalid r rfl).elim id fun h => ?_)
    by_cases hp : port = Config.ioPort
    · subst hp; exact ⟨_, .inp h⟩
    · exact ⟨_, .inpOther hp⟩
  | out r port =>
    refine .inl ((hvalid r rfl).elim id fun h => ?_)
    by_cases hp : port = Config.ioPort
    · subst hp; exact ⟨_, .out h⟩
    · exact ⟨_, .outOther hp⟩

/-- `Effect` says exactly when an instruction answers a next state, and which one. -/
theorem exec_eq_next_iff {i : Instr} {s t : State} : exec i s = .next t ↔ Effect s i t := by
  refine ⟨fun h => ?_, Effect.exec_eq⟩
  rcases exists_effect_or_push_outside i s with ⟨u, hu⟩ | ⟨addr, rfl, hsp⟩
  · rw [hu.exec_eq] at h
    cases h
    exact hu
  · rw [exec, execCall, push16_outside _ hsp, Result.andThen_stop] at h
    cases h

/-! ### What an effect changes, part by part -/

section
variable {s t : State} {i : Instr} (h : Effect s i t)
include h

theorem Effect.sp_cases :
    t.sp = s.sp ∨ (∃ addr, i = .call addr ∧ t.sp + 2 = s.sp) ∨ (i = .ret ∧ t.sp = s.sp + 2) := by
  cases h with
  | call hlo => exact .inr (.inl ⟨_, rfl, Nat.sub_add_cancel hlo⟩)
  | ret => exact .inr (.inr ⟨rfl, rfl⟩)
  | _ => exact .inl rfl

theorem Effect.mem_cases :
    t.mem = s.mem ∨
    (∃ (r : Byte) (addr v : Word), i = .store r addr ∧ r.toNat < 8 ∧ t.mem = s.mem.set16 addr.toNat v) ∨
    (∃ addr v : Word, i = .call addr ∧ 2 ≤ s.sp ∧ t.mem = s.mem.set16 (s.sp - 2) v) := by
  cases h with
  | store h => exact .inr (.inl ⟨_, _, _, rfl, h, rfl⟩)
  | call hlo => exact .inr (.inr ⟨_, _, rfl, hlo, rfl⟩)
  | _ => exact .inl rfl

theorem Effect.reg_cases (j : Fin 8) :
    t.reg j = s.reg j ∨
    ∃ r, i.registerByte = some r ∧ r.toNat = j.val ∧ ((∃ f, i.registerUpdate = some f) ∨ i = .inp r Config.ioPort) := by
  cases h with
  | @update _ r f hr hf h =>
    by_cases hj : j = ⟨r.toNat, h⟩
    · exact .inr ⟨r, hr, by rw [hj], .inl ⟨f, hf⟩⟩
    · exact .inl (State.reg_setReg_other _ _ _ hj)
  | @inp r h =>
    by_cases hj : j = ⟨r.toNat, h⟩
    · exact .inr ⟨r, rfl, by rw [hj], .inr rfl⟩
    · exact .inl (State.reg_setReg_other _ _ _ hj)
  | _ => exact .inl rfl

theorem Effect.status_cases :
    (i ≠ .halt ∧ sameStatus s t) ∨ (i = .halt ∧ t.halted = true) ∨ (∃ f, t = s.raise f) := by
  cases h with
  | halt => exact .inr (.inl ⟨rfl, rfl⟩)
  | storeFault | callFault | retFault => exact .inr (.inr ⟨_, rfl⟩)
  | invalid hr => exact .inl ⟨(by rintro rfl; cases hr), rfl, rfl⟩
  | update hr => exact .inl ⟨(by rintro rfl; cases hr), rfl, rfl⟩
  | _ => exact .inl ⟨Instr.noConfusion, rfl, rfl⟩

theorem Effect.output_cases :
    t.output = s.output ∨ ∃ r b, i = .out r Config.ioPort ∧ t.output = s.output ++ [b] := by
  cases h with
  | out => exact .inr ⟨_, _, rfl, rfl⟩
  | _ => exact .inl rfl

theorem Effect.input_cases :
    sameInput s t ∨
    ∃ r, i = .inp r Config.ioPort ∧ t.input = s.input.tail ∧ t.inputCount = s.inputCount + 1 := by
  cases h with
  | inp => exact .inr ⟨_, rfl, rfl, rfl⟩
  | _ => exact .inl ⟨rfl, rfl⟩

end

/-! ### What a step changes -/

theorem sameStorage_refl (s : State) : sameStorage s s :=
  ⟨fun _ => rfl, rfl, fun _ => rfl, ⟨rfl, rfl⟩, rfl⟩

/-- A fault of the fetch moves `pc` and changes no storage (R204). -/
theorem sameStorage_raise_setPc (s : State) (p : Nat) (f : FaultRecord) : sameStorage s ((s.setPc p).raise f) :=
  ⟨fun _ => rfl, rfl, fun _ => rfl, ⟨rfl, rfl⟩, rfl⟩

/-- A step changes storage only through the effect of the instruction that stands at `pc`. -/
theorem step_storage_cases {s t : State} (h : step s = .next t) :
    sameStorage s t ∨
    ∃ i : Instr, s.mem.bytes s.pc i.length = encode i ∧ Effect (s.setPc (s.pc + i.length)) i t := by
  rcases step_cases h with ⟨-, rfl⟩ | ⟨-, i, -, hbytes, hexec⟩ | ⟨-, -, -, rfl⟩ | ⟨-, p, -, -, -, -, rfl⟩
  · exact .inl (sameStorage_refl t)
  · exact .inr ⟨i, hbytes, exec_eq_next_iff.1 hexec⟩
  · exact .inl (sameStorage_raise_setPc _ _ _)
  · exact .inl (sameStorage_raise_setPc _ _ _)

/-! ### Legal states -/

section
variable {s : State}

theorem State.inv_of_fault_none (hf : s.fault = none) (hm : s.mem.wf = true) (hpc : s.pc ≤ 65536)
    (hsp : s.sp ≤ 65536) (heven : s.sp % 2 = 0) : s.Inv where
  memory := hm
  pcBound := hpc
  spBound := hsp
  spEven := heven
  faultHalts h := absurd hf h
  faultFits f h := by rw [hf] at h; cases h

/-- A running legal state holds no fault record (R33). -/
theorem State.Inv.fault_none (hs : s.Inv) (hrun : s.halted = false) : s.fault = none := by
  by_contra hf
  rw [hs.faultHalts hf] at hrun
  cases hrun

theorem State.Inv.setPc (hs : s.Inv) (hf : s.fault = none) {p : Nat} (hp : p ≤ 65536) : (s.setPc p).Inv :=
  State.inv_of_fault_none hf hs.memory hp hs.spBound hs.spEven

/-- Raising a fault whose record agrees with R201 and R204 leaves a legal state. -/
theorem State.Inv.raise (hs : s.Inv) {f : FaultRecord} (hf : f.fits s) : (s.raise f).Inv where
  memory := hs.memory
  pcBound := hs.pcBound
  spBound := hs.spBound
  spEven := hs.spEven
  faultHalts _ := rfl
  faultFits g hg := by
    cases hg
    cases f <;> exact hf

end

/-- The effect of an instruction leads from a legal state with no fault to a legal state. -/
theorem Effect.inv {s t : State} {i : Instr} (h : Effect s i t) (hs : s.Inv) (hf : s.fault = none) : t.Inv := by
  have hm : Config.memSize = 65536 := rfl
  have ⟨hmem, hpc, hsp, heven, _, _⟩ := hs
  cases h with
  | nop | invalid | jzNotTaken | inpOther | outOther => exact hs
  | halt | update | inp | out => exact State.inv_of_fault_none hf hmem hpc hsp heven
  | @jmp addr | @jzTaken _ addr => exact hs.setPc hf addr.isLt.le
  | store _ hb => exact State.inv_of_fault_none hf (Memory.set16_wf hmem hb _) hpc hsp heven
  | @storeFault _ addr _ hb =>
    have haddr : addr.toNat = 65535 := by have := addr.isLt; omega
    exact hs.raise (BitVec.eq_of_toNat_eq haddr)
  | @call addr hlo hhi =>
    exact State.inv_of_fault_none hf (Memory.set16_wf hmem (by omega) _) addr.isLt.le
      (Nat.sub_le_of_le_add (by omega)) (by show (s.sp - 2) % 2 = 0; omega)
  | callFault h => exact hs.raise (show s.sp = 0 ∧ s.sp = 0 by omega)
  | ret h =>
    exact State.inv_of_fault_none hf hmem (BitVec.isLt _).le (by show s.sp + 2 ≤ 65536; omega)
      (by show (s.sp + 2) % 2 = 0; omega)
  | retFault h => exact hs.raise (show s.sp = 65536 ∧ s.sp = 65536 by omega)

/-- A step stops only at a CALL with `sp` above 65536 (log 5). -/
theorem exists_step_next {s : State} (hsp : s.sp ≤ 65536) : ∃ t, step s = .next t := by
  cases hh : s.halted with
  | true => exact ⟨s, step_halted hh⟩
  | false =>
    rw [step_running hh]
    rcases fetchInstr_cases s with ⟨i, -, -, hf⟩ | ⟨-, -, hf⟩ | ⟨p, -, -, -, -, hf⟩ <;> rw [hf]
    · rcases exists_effect_or_push_outside i (s.setPc (s.pc + i.length)) with ⟨t, ht⟩ | ⟨-, -, hout⟩
      · exact ⟨t, ht.exec_eq⟩
      · exact absurd hsp (Nat.not_le.2 hout)
    · exact ⟨_, rfl⟩
    · exact ⟨_, rfl⟩

theorem step_inv {s t : State} (hs : s.Inv) (h : step s = .next t) : t.Inv := by
  have hm : Config.memSize = 65536 := rfl
  have hpc := hs.pcBound
  rcases step_cases h with ⟨-, rfl⟩ | ⟨hrun, i, hb, -, hexec⟩ | ⟨hrun, hb, hshape, rfl⟩ | ⟨hrun, p, hlo, -, -, hhi, rfl⟩
  · exact hs
  · have hf := hs.fault_none hrun
    exact (exec_eq_next_iff.1 hexec).inv (hs.setPc hf hb) hf
  · exact (hs.setPc (hs.fault_none hrun) hb).raise ⟨hshape, rfl, rfl⟩
  · exact (hs.setPc (hs.fault_none hrun) (by omega)).raise ⟨rfl, by omega⟩

/-- Settles O38: a step stops only with `sp` above 65536, and each way it can go on keeps the invariant. -/
theorem everyStepCompletesInALegalState : Obligations.EveryStepCompletesInALegalState := by
  intro s hs
  obtain ⟨t, ht⟩ := exists_step_next hs.spBound
  exact ⟨t, ht, step_inv hs ht⟩

/-- Settles O37: reset records no fault, so only the ranges are left to see. -/
theorem resetIsLegal : Obligations.ResetIsLegal :=
  State.inv_of_fault_none rfl rfl (by decide) le_rfl (by decide)

/-- Settles O36: the empty memory reads as the fill everywhere. -/
theorem resetValues : Obligations.ResetValues := by
  refine ⟨rfl, fun i => ?_, rfl, Memory.get_nil, rfl, rfl, rfl⟩
  simp [State.reg, State.reset]

/-! ### What only some instructions change -/

/-- Settles O42, by what each effect does to `sp`. -/
theorem onlyCallAndRetMoveSp : Obligations.OnlyCallAndRetMoveSp := by
  intro s t h hne
  rcases step_storage_cases h with ⟨-, hsp, -⟩ | ⟨i, hbytes, heff⟩
  · exact absurd hsp hne
  · have hop := Memory.get_of_encoded hbytes
    rcases heff.sp_cases with hsp | ⟨addr, rfl, hsp⟩ | ⟨rfl, hsp⟩
    · exact absurd hsp hne
    · exact .inl ⟨hop, hsp⟩
    · exact .inr ⟨hop, hsp⟩

/-- A byte that a word write changes is one of its two. -/
theorem Memory.eq_of_get_set16_ne {m : Memory} {a b : Nat} {v : Word} (h : (m.set16 a v).get b ≠ m.get b) :
    b = a ∨ b = a + 1 := by
  by_contra hb
  exact h (Memory.get_set16_other m a v (by omega))

/-- Settles O43: the only effects that write memory are word writes, and such a write changes only its two bytes. -/
theorem onlyStoreAndCallWriteMemory : Obligations.OnlyStoreAndCallWriteMemory := by
  intro s t a h hne
  rcases step_storage_cases h with ⟨-, -, hmem, -⟩ | ⟨i, hbytes, heff⟩
  · exact absurd (hmem a) hne
  · have hop := Memory.get_of_encoded hbytes
    rcases heff.mem_cases with hmem | ⟨r, addr, v, rfl, hr, hmem⟩ | ⟨addr, v, rfl, hsp, hmem⟩ <;> rw [hmem] at hne
    · exact absurd rfl hne
    · rw [Memory.get_succ_of_encoded hbytes rfl, Memory.get16_of_encoded hbytes rfl rfl]
      exact .inl ⟨hop, hr, Memory.eq_of_get_set16_ne hne⟩
    · have ha : a = s.sp - 2 ∨ a = s.sp - 2 + 1 := Memory.eq_of_get_set16_ne hne
      replace hsp : 2 ≤ s.sp := hsp
      exact .inr ⟨hop, hsp, by omega⟩

/-- Settles O44, by what each effect does to one register. -/
theorem onlyTheNamedRegisterChanges : Obligations.OnlyTheNamedRegisterChanges := by
  intro s t j h hne
  rcases step_storage_cases h with ⟨hregs, -⟩ | ⟨i, hbytes, heff⟩
  · exact absurd (hregs j) hne
  · have hop := Memory.get_of_encoded hbytes
    rcases heff.reg_cases j with hreg | ⟨r, hr, hj, hwrites⟩
    · exact absurd hreg hne
    · refine ⟨by rw [Memory.get_succ_of_encoded hbytes hr, hj], ?_⟩
      rcases hwrites with ⟨f, hf⟩ | rfl
      · rw [hop]
        have := Instr.opcode_of_registerUpdate hf
        tauto
      · exact .inr (.inr (.inr (.inr (.inr (.inr ⟨hop, Memory.get16_of_encoded hbytes hr rfl⟩)))))

/-- Settles O48, by what each effect does to the trace and to the input. -/
theorem onlyInAndOutTouchTheStreams : Obligations.OnlyInAndOutTouchTheStreams := by
  intro s t h
  rcases step_storage_cases h with ⟨-, -, -, hin, hout⟩ | ⟨i, hbytes, heff⟩
  · exact ⟨.inl hout, .inl hin⟩
  · have hop := Memory.get_of_encoded hbytes
    constructor
    · refine heff.output_cases.imp id ?_
      rintro ⟨r, b, rfl, hout⟩
      exact ⟨hop, Memory.get16_of_encoded hbytes rfl rfl, b, hout⟩
    · refine heff.input_cases.imp id ?_
      rintro ⟨r, rfl, hin⟩
      exact ⟨hop, Memory.get16_of_encoded hbytes rfl rfl, hin⟩

/-! ### The status -/

/-- Settles O45: the effect of an instruction sets `halted` at HALT or with a fault record, and a fault of the fetch comes
with a record. -/
theorem onlyHaltAndFaultsStopTheMachine : Obligations.OnlyHaltAndFaultsStopTheMachine := by
  intro s t hf h
  rcases step_cases h with ⟨hh, rfl⟩ | ⟨hrun, i, hb, hbytes, hexec⟩ | ⟨hrun, hb, hshape, rfl⟩ | ⟨hrun, p, -, -, -, -, rfl⟩
  · exact ⟨id, fun hrun => absurd (hh.symm.trans hrun) nofun⟩
  · refine ⟨fun hh => absurd (hh.symm.trans hrun) nofun, fun _ => ?_⟩
    have hop := Memory.get_of_encoded hbytes
    rcases (exec_eq_next_iff.1 hexec).status_cases with ⟨hi, hhalted, hfault⟩ | ⟨rfl, hhalted⟩ | ⟨f, rfl⟩
    · rw [hhalted, hfault, State.setPc_halted, State.setPc_fault, hrun, hf, hop, Instr.opcode_eq_halt_iff]
      simp [hi]
    · exact iff_of_true hhalted (.inl ⟨hb, hop⟩)
    · exact iff_of_true rfl (.inr nofun)
  · exact ⟨fun _ => rfl, fun _ => iff_of_true rfl (.inr nofun)⟩
  · exact ⟨fun _ => rfl, fun _ => iff_of_true rfl (.inr nofun)⟩

/-- The state with another halt flag and fault record. -/
def State.withStatus (s : State) (h : Bool) (f : Option FaultRecord) : State := { s with halted := h, fault := f }

theorem sameStorage_withStatus (s : State) (h : Bool) (f : Option FaultRecord) : sameStorage s (s.withStatus h f) :=
  ⟨fun _ => rfl, rfl, fun _ => rfl, ⟨rfl, rfl⟩, rfl⟩

/-- An effect does not depend on the status it starts from, and what it does to the status does not either. -/
theorem Effect.withStatus {s t : State} {i : Instr} (he : Effect s i t) :
    ∃ (stops : Bool) (raised : Option FaultRecord), ∀ (h : Bool) (f : Option FaultRecord),
      Effect (s.withStatus h f) i (t.withStatus (h || stops) (raised.or f)) := by
  cases he with
  | halt => exact ⟨true, none, fun h f => by rw [Bool.or_true]; exact .halt⟩
  | @storeFault _ addr h hb =>
    exact ⟨true, some (.storeOutOfBounds addr), fun _ _ => by rw [Bool.or_true]; exact .storeFault h hb⟩
  | callFault h => exact ⟨true, some (.stackOverflow s.sp), fun _ _ => by rw [Bool.or_true]; exact .callFault h⟩
  | retFault h => exact ⟨true, some (.stackUnderflow s.sp), fun _ _ => by rw [Bool.or_true]; exact .retFault h⟩
  | _ =>
    refine ⟨false, none, fun h f => ?_⟩
    rw [Bool.or_false]
    constructor <;> assumption

/-- Settles O46: the same effect leads from the changed status to a state that differs in the status alone. -/
theorem statusIsNeverRead : Obligations.StatusIsNeverRead := by
  intro i s t hexec
  obtain ⟨stops, raised, hstatus⟩ := (exec_eq_next_iff.1 hexec).withStatus
  exact ⟨stops, raised, fun h f => ⟨_, (hstatus h f).exec_eq, rfl, sameStorage_withStatus _ _ _, rfl, rfl⟩⟩

/-! ### The program counter -/

/-- Settles O47, by the ways the instruction can end; those that record a fault are excluded. -/
theorem pcAfterEachInstruction : Obligations.PcAfterEachInstruction := by
  intro i s t hfetch hstep hfault
  rw [step_of_fetches hfetch, exec_eq_next_iff] at hstep
  cases hstep with
  | storeFault | callFault | retFault => cases hfault
  | invalid hr h =>
    cases i with
    | nop | jmp | call | ret | halt => cases hr
    | jz => cases hr; simp only [State.setPc_pc, Instr.length, dif_neg (Nat.not_lt.2 h)]
    | _ => rfl
  | update hr hf h =>
    cases i with
    | load | add | and | or | xor | not => rfl
    | _ => cases hf
  | jzTaken h hz =>
    rw [State.setPc_reg] at hz
    simp only [State.setPc_pc, dif_pos h, if_pos hz]
  | jzNotTaken h hz =>
    rw [State.setPc_reg] at hz
    simp only [State.setPc_pc, Instr.length, dif_pos h, if_neg hz]
  | ret h => exact wordOfBytes_toNat _ _
  | _ => rfl

end Machine
end Sys2Proof

/-! ## Proofs of the family 20_memory: reads and writes, the canonical form, and the fetch -/

namespace Sys2Proof

/-! ### Truncated bytes -/

/-- NOT is the one instruction of format R (R84). -/
theorem opcode_of_shapeOf_r {op : Byte} {mk : Byte → Instr} (h : shapeOf op = some (.r mk)) : op = 0x09 := by
  unfold shapeOf at h
  split at h
  all_goals cases h
  case _ hop => exact BitVec.eq_of_toNat_eq hop

/-- JMP and CALL are the instructions of format A (R84). -/
theorem opcode_of_shapeOf_a {op : Byte} {mk : Word → Instr} (h : shapeOf op = some (.a mk)) :
    op = 0x04 ∨ op = 0x0A := by
  unfold shapeOf at h
  split at h
  all_goals cases h
  case _ hop => exact .inl (BitVec.eq_of_toNat_eq hop)
  case _ hop => exact .inr (BitVec.eq_of_toNat_eq hop)

theorem opcode_of_shapeOf_ri {op : Byte} {mk : Byte → Word → Instr} (h : shapeOf op = some (.ri mk)) :
    ¬ (op = 0x09 ∨ op = 0x04 ∨ op = 0x0A) := by
  rintro (rfl | rfl | rfl) <;> cases h

/-- The bytes after an opcode are too few only for a format with operands, and fewer than its operands take (R81). -/
theorem decode_truncated_cases {op : Byte} {bytes : List Byte} (h : decode (op :: bytes) = .truncated) :
    (∃ mk, shapeOf op = some (.r mk) ∧ bytes.length < 1) ∨
    (∃ mk, shapeOf op = some (.a mk) ∧ bytes.length < 2) ∨
    (∃ mk, shapeOf op = some (.ri mk) ∧ bytes.length < 3) := by
  rcases hs : shapeOf op with - | (i | mk | mk | mk) <;> simp only [decode, hs] at h
  · cases h
  · cases h
  · rcases bytes with - | ⟨r, rest⟩
    · exact .inl ⟨mk, rfl, by simp⟩
    · cases h
  · rcases bytes with - | ⟨lo, - | ⟨hi, rest⟩⟩
    · exact .inr (.inl ⟨mk, rfl, by simp⟩)
    · exact .inr (.inl ⟨mk, rfl, by simp⟩)
    · cases h
  · rcases bytes with - | ⟨r, - | ⟨lo, - | ⟨hi, rest⟩⟩⟩
    · exact .inr (.inr ⟨mk, rfl, by simp⟩)
    · exact .inr (.inr ⟨mk, rfl, by simp⟩)
    · exact .inr (.inr ⟨mk, rfl, by simp⟩)
    · cases h

namespace Machine

/-! ### Reads and writes of memory -/

theorem Memory.get16_toNat (m : Memory) (a : Nat) :
    (m.get16 a).toNat = (m.get (a + 1)).toNat * 256 + (m.get a).toNat :=
  wordOfBytes_toNat _ _

/-- A word read after a word write gives the word written. -/
theorem Memory.get16_set16_same {m : Memory} (h : m.wf = true) {a : Nat} (ha : a < Config.memSize) (v : Word) :
    (m.set16 a v).get16 a = v := by
  rw [Memory.get16, Memory.get_set16_lo h, Memory.get_set16_hi h ha, wordOfBytes_lo_hi]

/-- Settles O10, by the laws of the byte write and of the word write. -/
theorem memWriteWritesExactlyItsBytes : Obligations.MemWriteWritesExactlyItsBytes := by
  intro m hm
  refine ⟨fun a b ha => ⟨?_, ?_, ?_⟩, fun a v ha => ⟨?_, ?_, ?_, ?_, ?_⟩⟩
  · exact Memory.get_set_same hm a b
  · exact fun c hc => Memory.get_set_other m a b hc
  · exact Memory.set_wf hm ha b
  · rw [Memory.get_set16_lo hm, loByte_toNat]
  · rw [Memory.get_set16_hi hm (Nat.lt_of_succ_lt ha), hiByte_toNat]
  · exact fun c hc => Memory.get_set16_other m a v hc
  · exact Memory.get16_set16_same hm (Nat.lt_of_succ_lt ha) v
  · exact Memory.set16_wf hm ha v

/-- Settles O9: the word read is its two bytes put together, and their order is `wordOfBytes`. -/
theorem memReadIsLittleEndian : Obligations.MemReadIsLittleEndian :=
  Memory.get16_toNat

/-! ### The canonical form -/

theorem Memory.get_cons_same (a : Nat) (b : Byte) (rest : Memory) : Memory.get ((a, b) :: rest) a = b :=
  if_pos rfl

theorem Memory.get_cons_other {a c : Nat} (b : Byte) (rest : Memory) (h : c ≠ a) :
    Memory.get ((a, b) :: rest) c = rest.get c :=
  if_neg h

/-- A canonical memory reads as the fill below its first entry, so what does not is at or above it. -/
theorem Memory.head_le_of_get_ne_fill {lo a c : Nat} {b : Byte} {rest : Memory}
    (h : Memory.wfFrom lo ((a, b) :: rest) = true) (hc : Memory.get ((a, b) :: rest) c ≠ Config.fill) : a ≤ c := by
  obtain ⟨-, hrest⟩ := Memory.wfFrom_cons.1 h
  have hfrom : Memory.wfFrom a ((a, b) :: rest) = true := Memory.wfFrom_cons.2 ⟨le_rfl, hrest⟩
  by_contra hlt
  exact hc (Memory.get_below hfrom (Nat.not_le.1 hlt))

/-- Canonical memories that read alike begin with the same entry. -/
theorem Memory.head_eq_of_get_eq {lo lo' a a' : Nat} {b b' : Byte} {rest rest' : Memory}
    (h : Memory.wfFrom lo ((a, b) :: rest) = true) (h' : Memory.wfFrom lo' ((a', b') :: rest') = true)
    (heq : ∀ c < Config.memSize, Memory.get ((a, b) :: rest) c = Memory.get ((a', b') :: rest') c) :
    a = a' ∧ b = b' := by
  obtain ⟨-, ha, hb, -⟩ := Memory.wfFrom_cons.1 h
  obtain ⟨-, ha', hb', -⟩ := Memory.wfFrom_cons.1 h'
  have hle' : a' ≤ a := Memory.head_le_of_get_ne_fill h' (by rwa [← heq a ha, Memory.get_cons_same])
  have hle : a ≤ a' := Memory.head_le_of_get_ne_fill h (by rwa [heq a' ha', Memory.get_cons_same])
  obtain rfl := Nat.le_antisymm hle hle'
  have hread := heq a ha
  rw [Memory.get_cons_same, Memory.get_cons_same] at hread
  exact ⟨rfl, hread⟩

theorem Memory.eq_of_get_eq {lo lo' : Nat} {m m' : Memory} (h : Memory.wfFrom lo m = true)
    (h' : Memory.wfFrom lo' m' = true) (heq : ∀ c < Config.memSize, m.get c = m'.get c) : m = m' := by
  induction m generalizing m' lo lo' with
  | nil =>
    cases m' with
    | nil => rfl
    | cons entry' rest' =>
      obtain ⟨a', b'⟩ := entry'
      obtain ⟨-, ha', hb', -⟩ := Memory.wfFrom_cons.1 h'
      exact absurd ((Memory.get_cons_same a' b' rest').symm.trans (heq a' ha').symm) hb'
  | cons entry rest ih =>
    obtain ⟨a, b⟩ := entry
    obtain ⟨-, ha, hb, hrest⟩ := Memory.wfFrom_cons.1 h
    cases m' with
    | nil => exact absurd ((Memory.get_cons_same a b rest).symm.trans (heq a ha)) hb
    | cons entry' rest' =>
      obtain ⟨a', b'⟩ := entry'
      obtain ⟨-, -, -, hrest'⟩ := Memory.wfFrom_cons.1 h'
      obtain ⟨rfl, rfl⟩ := Memory.head_eq_of_get_eq h h' heq
      have hreads : ∀ c < Config.memSize, Memory.get rest c = Memory.get rest' c := by
        intro c hc
        rcases Nat.lt_or_ge a c with hac | hca
        · have hread := heq c hc
          rwa [Memory.get_cons_other b rest hac.ne', Memory.get_cons_other b rest' hac.ne'] at hread
        · rw [Memory.get_below hrest (Nat.lt_succ_of_le hca), Memory.get_below hrest' (Nat.lt_succ_of_le hca)]
      rw [ih hrest hrest' hreads]

/-- Settles O11, by induction on the entries: the first entries agree, and behind them the rests read alike. -/
theorem canonicalMemoriesAreEqualData : Obligations.CanonicalMemoriesAreEqualData :=
  fun _ _ hm hm' => Memory.eq_of_get_eq hm hm'

/-! ### The fetch of a byte and of a word -/

/-- Settles O12, by the two cases of the byte fetch. -/
theorem fetch8ReadsOneByteOrFaults : Obligations.Fetch8ReadsOneByteOrFaults :=
  fun _ => ⟨fetch8_out_of_bounds, fetch8_in_bounds⟩

/-- Settles O13, by the two cases of the word fetch and the value of the word read. -/
theorem fetch16ReadsOneWordOrFaults : Obligations.Fetch16ReadsOneWordOrFaults := by
  refine fun s => ⟨fun h => fetch16_out_of_bounds ?_, fun h => ⟨s.mem.get16 s.pc, Memory.get16_toNat _ _, ?_⟩⟩
  · exact Nat.add_lt_add_right h 2
  · exact fetch16_in_bounds (Nat.add_le_add_right h 2)

theorem fetch8_eq_value {s : State} {b : Byte} (h : s.pc < Config.memSize) (hb : s.mem.get s.pc = b) :
    fetch8 s = .value b (s.setPc (s.pc + 1)) :=
  hb ▸ fetch8_in_bounds h

theorem fetch16_eq_value {s : State} {w : Word} (h : s.pc + 2 ≤ Config.memSize) (hw : s.mem.get16 s.pc = w) :
    fetch16 s = .value w (s.setPc (s.pc + 2)) :=
  hw ▸ fetch16_in_bounds h

/-- Settles O14: the fetches read the memory STORE has written. -/
theorem storeIsSeenByTheNextFetch : Obligations.StoreIsSeenByTheNextFetch := by
  intro s r addr i hm hi haddr
  have hr : r.toNat < 8 := hi ▸ i.isLt
  obtain rfl : i = ⟨r.toNat, hr⟩ := Fin.ext hi
  have hword : addr.toNat + 2 ≤ Config.memSize := Nat.add_le_add_right haddr 2
  have hhi : addr.toNat + 1 < Config.memSize := hword
  have hlo : addr.toNat < Config.memSize := Nat.lt_of_succ_lt hhi
  refine ⟨_, (Effect.store hr hword).exec_eq, ?_, ?_, ?_⟩
  · exact ⟨_, fetch8_eq_value hlo (Memory.get_set16_lo hm addr.toNat _)⟩
  · exact ⟨_, fetch8_eq_value hhi (Memory.get_set16_hi hm hlo _)⟩
  · exact ⟨_, fetch16_eq_value hword (Memory.get16_set16_same hm hlo _)⟩

/-! ### The fetch past the end of memory -/

theorem step_of_fetchInstr_raised {s t : State} (hrun : s.halted = false) (hf : fetchInstr s = .raised t) :
    step s = .next t := by
  rw [step_running hrun, hf, Result.andThen_raised]

/-- With `pc` inside memory the window begins with the opcode. -/
theorem State.window_eq_cons {s : State} (h : s.pc < Config.memSize) :
    s.window = s.mem.get s.pc :: s.mem.bytes (s.pc + 1) (min 3 (Config.memSize - (s.pc + 1))) := by
  have hlen : min 4 (Config.memSize - s.pc) = min 3 (Config.memSize - (s.pc + 1)) + 1 := by omega
  rw [State.window, hlen, Memory.bytes_succ]

/-- Settles O16: outside memory the fetch of the opcode faults; inside, each format with operands faults at the first
of its fetches that does not fit (D6, D7). -/
theorem fetchPastTheEndFaults : Obligations.FetchPastTheEndFaults := by
  intro s hrun hdecode
  have hm : Config.memSize = 65536 := rfl
  rcases Nat.lt_or_ge s.pc Config.memSize with hpc | hpc
  · have hout := Nat.not_le.2 hpc
    rw [State.window_eq_cons hpc] at hdecode
    rcases decode_truncated_cases hdecode with ⟨mk, hshape, hlen⟩ | ⟨mk, hshape, hlen⟩ | ⟨mk, hshape, hlen⟩ <;>
      rw [Memory.bytes_length] at hlen
    · have hop := opcode_of_shapeOf_r hshape
      exact ⟨s.pc + 1, step_of_fetchInstr_raised hrun (fetchInstr_short_r (by omega) hshape),
        fun h => absurd h hout, fun _ _ => rfl, fun _ h => absurd hop h⟩
    · have hop := opcode_of_shapeOf_a hshape
      exact ⟨s.pc + 1, step_of_fetchInstr_raised hrun (fetchInstr_short_a hpc (by omega) hshape),
        fun h => absurd h hout, fun _ _ => rfl, fun _ _ h4 hA => absurd hop (not_or_intro h4 hA)⟩
    · have hop := opcode_of_shapeOf_ri hshape
      have hfetch := fetchInstr_short_ri hpc (by omega) hshape
      refine ⟨if s.pc = 65535 then 65536 else s.pc + 2, step_of_fetchInstr_raised hrun ?_,
        fun h => absurd h hout, fun _ h => absurd h hop, fun _ _ _ _ => rfl⟩
      by_cases hlast : s.pc = 65535
      · rw [hfetch, if_pos (by omega), if_pos hlast, hlast]
        rfl
      · rw [hfetch, if_neg (by omega), if_neg hlast]
        rfl
  · have hin := Nat.not_lt.2 hpc
    exact ⟨s.pc, step_of_fetchInstr_raised hrun (fetchInstr_outside hpc),
      fun _ => rfl, fun h => absurd h hin, fun h => absurd h hin⟩

end Machine
end Sys2Proof

/-! ## Proofs of the family 30_encoding: the decoder and the encoder, instructions placed in memory, runs, and tokens -/

namespace Sys2Proof

/-! ### The decoder by format (R81) -/

section
variable {op : Byte} (rest : List Byte)

theorem decode_n {i : Instr} (h : shapeOf op = some (.n i)) : decode (op :: rest) = .ok i rest := by
  simp only [decode, h]

theorem decode_r {mk : Byte → Instr} (h : shapeOf op = some (.r mk)) (r : Byte) :
    decode (op :: r :: rest) = .ok (mk r) rest := by
  simp only [decode, h]

theorem decode_a {mk : Word → Instr} (h : shapeOf op = some (.a mk)) (lo hi : Byte) :
    decode (op :: lo :: hi :: rest) = .ok (mk (wordOfBytes lo hi)) rest := by
  simp only [decode, h]

theorem decode_ri {mk : Byte → Word → Instr} (h : shapeOf op = some (.ri mk)) (r lo hi : Byte) :
    decode (op :: r :: lo :: hi :: rest) = .ok (mk r (wordOfBytes lo hi)) rest := by
  simp only [decode, h]

theorem decode_unknown (h : shapeOf op = none) : decode (op :: rest) = .unknownOpcode op := by
  simp only [decode, h]

end

theorem shapeOf_eq_none_of_decode {op : Byte} {bytes : List Byte} (h : decode (op :: bytes) = .unknownOpcode op) :
    shapeOf op = none := by
  rcases hs : shapeOf op with - | (i | mk | mk | mk) <;> simp only [decode, hs] at h
  · rfl
  · cases h
  all_goals split at h <;> cases h

/-- The 241 values 0x0E to 0xFE are in no row of the opcode map (R86). -/
theorem shapeOf_eq_none {op : Byte} (hlo : 0x0E ≤ op.toNat) (hhi : op.toNat ≤ 0xFE) : shapeOf op = none := by
  unfold shapeOf
  split
  case h_16 => rfl
  all_goals omega

/-! ### Decode and encode are inverse -/

/-- Settles O1, by the format of each instruction: a word operand is put together from the two bytes it was split into. -/
theorem decodeEncodeRoundTrip : Obligations.DecodeEncodeRoundTrip := by
  intro i rest
  cases i with
  | nop | ret | halt => exact decode_n rest rfl
  | not r => exact decode_r rest rfl r
  | jmp w | call w => exact (decode_a rest rfl (loByte w) (hiByte w)).trans (by rw [wordOfBytes_lo_hi])
  | load r w | add r w | store r w | jz r w | and r w | or r w | xor r w | inp r w | out r w =>
    exact (decode_ri rest rfl r (loByte w) (hiByte w)).trans (by rw [wordOfBytes_lo_hi])

/-- Settles O2, by the shape of the opcode: each format takes exactly the bytes its encoding has. -/
theorem encodeDecodeRoundTrip : Obligations.EncodeDecodeRoundTrip := by
  intro bytes rest i h
  rcases bytes with - | ⟨op, bytes⟩
  · cases h
  rcases Machine.shapeOf_cases op with ⟨hs, -⟩ | ⟨j, hs, he, -⟩ | ⟨mk, hs, he⟩ | ⟨mk, hs, he⟩ | ⟨mk, hs, he⟩ <;>
    simp only [decode, hs] at h
  · cases h
  · cases h
    rw [he]
    rfl
  · rcases bytes with - | ⟨r, bytes⟩ <;> cases h
    rw [(he r).1]
    rfl
  · rcases bytes with - | ⟨lo, - | ⟨hi, bytes⟩⟩ <;> cases h
    rw [(he _).1, loByte_wordOfBytes, hiByte_wordOfBytes]
    rfl
  · rcases bytes with - | ⟨r, - | ⟨lo, - | ⟨hi, bytes⟩⟩⟩ <;> cases h
    rw [(he r _).1, loByte_wordOfBytes, hiByte_wordOfBytes]
    rfl

/-- Settles O3, by the decoder's equation for the format of each row. -/
theorem opcodeMapOfTheFifteen : Obligations.OpcodeMapOfTheFifteen := by
  intro r lo hi w rest hw
  obtain rfl : w = wordOfBytes lo hi := BitVec.eq_of_toNat_eq (hw.trans (wordOfBytes_toNat lo hi).symm)
  exact ⟨decode_n _ rfl, decode_ri _ rfl _ _ _, decode_ri _ rfl _ _ _, decode_ri _ rfl _ _ _, decode_a _ rfl _ _,
    decode_ri _ rfl _ _ _, decode_ri _ rfl _ _ _, decode_ri _ rfl _ _ _, decode_ri _ rfl _ _ _, decode_r _ rfl _,
    decode_a _ rfl _ _, decode_n _ rfl, decode_ri _ rfl _ _ _, decode_ri _ rfl _ _ _, decode_n _ rfl⟩

/-- Settles O7, by running the decoder on the words. -/
theorem knownWordsDecode : Obligations.KnownWordsDecode := by
  unfold Obligations.KnownWordsDecode
  decide

/-! ### The length of an instruction -/

/-- R85's list: which opcodes have which length. -/
theorem Instr.opcode_length_cases (i : Instr) :
    ((i.opcode = 0x00 ∨ i.opcode = 0x0B ∨ i.opcode = 0xFF) ∧ i.length = 1) ∨
    (i.opcode = 0x09 ∧ i.length = 2) ∨
    ((i.opcode = 0x04 ∨ i.opcode = 0x0A) ∧ i.length = 3) ∨
    ((i.opcode = 0x01 ∨ i.opcode = 0x02 ∨ i.opcode = 0x03 ∨ i.opcode = 0x05 ∨ i.opcode = 0x06 ∨ i.opcode = 0x07 ∨
      i.opcode = 0x08 ∨ i.opcode = 0x0C ∨ i.opcode = 0x0D) ∧ i.length = 4) := by
  cases i <;> simp [Instr.opcode, Instr.length]

theorem Instr.length_pos (i : Instr) : 0 < i.length := by
  cases i <;> simp [Instr.length]

theorem Instr.length_le_four (i : Instr) : i.length ≤ 4 := by
  cases i <;> simp [Instr.length]

/-- Decoding consumes the opcode and, of the bytes after it, the rest of the instruction's length. -/
theorem opcode_and_length_of_decode {op : Byte} {bytes rest : List Byte} {i : Instr}
    (h : decode (op :: bytes) = .ok i rest) : op = i.opcode ∧ bytes.length + 1 = i.length + rest.length := by
  have hbytes := encodeDecodeRoundTrip _ _ _ h
  have hlen := congrArg List.length hbytes
  rw [List.length_append, Instr.length_encode, List.length_cons] at hlen
  exact ⟨(List.cons.inj hbytes).1.symm, hlen.symm⟩

namespace Machine

/-- An unrecognised opcode ends the step with its fault, `pc` after its byte (R112, D7). -/
theorem step_of_unknown_opcode {s : State} {op : Byte} (h : s.fetches [op]) (hs : shapeOf op = none) :
    step s = .next ((s.setPc (s.pc + 1)).raise (.unknownOpcode op s.pc)) := by
  obtain ⟨hrun, hbound, hbytes⟩ := h
  obtain rfl : s.mem.get s.pc = op := (List.cons.inj hbytes).1
  exact step_of_fetchInstr_raised hrun (fetchInstr_unknown hbound hs)

/-- Settles O4: the values are in no row of the opcode map, so the decoder and the fetch both reject them. -/
theorem otherOpcodesFault : Obligations.OtherOpcodesFault := by
  intro op hlo hhi
  have hs := shapeOf_eq_none hlo hhi
  exact ⟨fun rest => decode_unknown rest hs, fun s hfetch => ⟨_, step_of_unknown_opcode hfetch hs, rfl, nofun⟩⟩

/-- Settles O5: R85's list read off the instruction that decodes, and the step of an opcode that decodes to none. -/
theorem opcodeAloneGivesLength : Obligations.OpcodeAloneGivesLength := by
  refine ⟨fun op bytes rest i h => ?_, fun op rest h s hfetch => ?_⟩
  · obtain ⟨rfl, hlen⟩ := opcode_and_length_of_decode h
    rcases i.opcode_length_cases with ⟨hop, hl⟩ | ⟨hop, hl⟩ | ⟨hop, hl⟩ | ⟨hop, hl⟩
    · exact .inl ⟨hop, hl, by omega⟩
    · exact .inr (.inl ⟨hop, hl, by omega⟩)
    · exact .inr (.inr (.inl ⟨hop, hl, by omega⟩))
    · exact .inr (.inr (.inr ⟨hop, hl, by omega⟩))
  · exact ⟨_, step_of_unknown_opcode hfetch (shapeOf_eq_none_of_decode h), rfl, nofun⟩

end Machine

/-! ### Table words -/

theorem natOfBytes_lt (bs : List Byte) : natOfBytes bs < 2 ^ (8 * bs.length) := by
  induction bs with
  | nil => decide
  | cons b rest ih =>
    have hb := b.isLt
    rw [natOfBytes, List.length_cons, Nat.mul_add_one, Nat.pow_add]
    omega

theorem bytesOfNat_zero (n : Nat) : bytesOfNat n 0 = List.replicate n 0 := by
  induction n with
  | zero => rfl
  | succ n ih => rw [bytesOfNat, Nat.zero_div, ih, List.replicate_succ]; rfl

/-- The bytes of the number that was made of some bytes: those bytes, then zeros. -/
theorem bytesOfNat_natOfBytes {bs : List Byte} {n : Nat} (h : bs.length ≤ n) :
    bytesOfNat n (natOfBytes bs) = bs ++ List.replicate (n - bs.length) 0 := by
  induction bs generalizing n with
  | nil => exact bytesOfNat_zero n
  | cons b rest ih =>
    obtain ⟨k, rfl⟩ := Nat.exists_eq_add_of_le' (Nat.le_trans (Nat.succ_pos _) h)
    have hb := b.isLt
    have hhead : BitVec.ofNat 8 (b.toNat + 256 * natOfBytes rest) = b :=
      BitVec.eq_of_toNat_eq (by rw [BitVec.toNat_ofNat]; omega)
    have htail : (b.toNat + 256 * natOfBytes rest) / 256 = natOfBytes rest := by omega
    rw [natOfBytes, bytesOfNat, hhead, htail, ih (Nat.le_of_succ_le_succ h), List.length_cons, Nat.add_sub_add_right,
      List.cons_append]

/-- The bytes of an instruction's table word are its encoding, filled up with zeros to the longest instruction. -/
theorem tableBytes_tableWord (i : Instr) :
    tableBytes (8 * i.length) i.tableWord = encode i ++ List.replicate (4 - i.length) 0 := by
  have hlt := natOfBytes_lt (encode i)
  have hle : (encode i).length ≤ 4 := i.length_encode ▸ i.length_le_four
  rw [Instr.length_encode] at hlt
  rw [tableBytes, Instr.tableWord, Nat.mod_eq_of_lt hlt, bytesOfNat_natOfBytes hle, Instr.length_encode]

/-- Settles O6: the table word's bytes begin with the encoding, which decodes to the instruction. -/
theorem tableWordsDecode : Obligations.TableWordsDecode := by
  intro i
  rw [decodeTableWord, tableBytes_tableWord, decodeEncodeRoundTrip]

namespace Machine

/-! ### Instructions in memory -/

/-- Bytes written to memory stand there, whatever is written after them. -/
theorem Memory.bytes_setBytes_append {m : Memory} (hm : m.wf = true) {a : Nat} {bs : List Byte} (more : List Byte)
    (h : a + bs.length ≤ Config.memSize) : (m.setBytes a (bs ++ more)).bytes a bs.length = bs := by
  induction bs generalizing m a with
  | nil => rfl
  | cons b rest ih =>
    rw [List.length_cons] at h
    have ha : a < Config.memSize := by omega
    rw [List.cons_append, Memory.setBytes, if_pos ha, List.length_cons, Memory.bytes_succ,
      ih (Memory.set_wf hm ha b) (by omega), Memory.get_setBytes_other _ _ _ (.inl a.lt_succ_self),
      Memory.get_set_same hm]

/-- Settles O8: the placed word puts the encoding at `pc`, and a running machine runs what stands there. -/
theorem placedInstructionRunsNext : Obligations.PlacedInstructionRunsNext := by
  intro i s hm hroom
  refine step_of_fetches (s := s.withFetchWord (8 * i.length) i.tableWord) ⟨rfl, ?_, ?_⟩
  · rwa [Instr.length_encode]
  · show (s.mem.setBytes s.pc (tableBytes (8 * i.length) i.tableWord)).bytes s.pc (encode i).length = encode i
    rw [tableBytes_tableWord]
    exact Memory.bytes_setBytes_append hm _ (by rwa [Instr.length_encode])

theorem Memory.bytes_add (m : Memory) (a k n : Nat) : m.bytes a (k + n) = m.bytes a k ++ m.bytes (a + k) n := by
  induction k generalizing a with
  | zero => rw [Nat.zero_add]; rfl
  | succ k ih =>
    rw [Nat.add_right_comm, Memory.bytes_succ, ih, Memory.bytes_succ, List.cons_append, Nat.add_right_comm a 1 k,
      Nat.add_assoc a k 1]

/-- What the window decodes to stands whole at `pc`. -/
theorem State.fetches_of_decode_window {s : State} {i : Instr} {rest : List Byte} (hrun : s.halted = false)
    (h : decode s.window = .ok i rest) : s.fetches (encode i) := by
  have hbytes := encodeDecodeRoundTrip _ _ _ h
  have hlen := congrArg List.length hbytes
  rw [List.length_append, State.window, Memory.bytes_length] at hlen
  rw [State.window, ← hlen, Memory.bytes_add] at hbytes
  have hpos : 0 < (encode i).length := i.length_encode ▸ i.length_pos
  exact ⟨hrun, by omega, (List.append_inj_left hbytes (Memory.bytes_length _ _ _).symm).symm⟩

/-- Settles O15: the window's instruction stands whole at `pc`, so a step runs it. -/
theorem stepRunsTheDecodedInstruction : Obligations.StepRunsTheDecodedInstruction :=
  fun _ _ _ hrun h => step_of_fetches (State.fetches_of_decode_window hrun h)

/-- Settles O34, by the effect of an instruction whose register byte names no register. -/
theorem invalidRegisterByteTurnsTheEffectOff : Obligations.InvalidRegisterByteTurnsTheEffectOff :=
  fun _ _ hr h => ⟨exec_of_invalid_register hr h,
    fun _ hfetch => (step_of_fetches hfetch).trans (exec_of_invalid_register hr h _)⟩

/-! ### Runs -/

theorem core_run_succ {s t : State} (n : Nat) (h : step s = .next t) : core.run (n + 1) s = core.run n t := by
  simp only [Host.Core.run, show core.step s = .next t from h]

/-- Settles O19, by induction on the number of steps. -/
theorem haltedMachineNeverChanges : Obligations.HaltedMachineNeverChanges := by
  intro s n hh
  have hstep := step_halted hh
  refine ⟨hstep, ?_⟩
  induction n with
  | zero => rfl
  | succ n ih => exact (core_run_succ n hstep).trans ih

theorem run_of_halted {s : State} (n : Nat) (h : s.halted = true) : run n s = .halted s := by
  cases n <;> exact if_pos h

theorem run_succ_of_next {s t : State} (n : Nat) (hrun : s.halted = false) (h : step s = .next t) :
    run (n + 1) s = run n t := by
  simp [run, hrun, h]

/-- A run that answers `halted` gives the state of that many steps, and more steps do not change it. -/
theorem run_halted {n : Nat} {s t : State} (h : run n s = .halted t) :
    t.halted = true ∧ core.run n s = .next t ∧ ∀ m, n ≤ m → run m s = .halted t := by
  fun_induction run n s with
  | case1 s hh | case3 n s hh =>
    cases h
    exact ⟨hh, (haltedMachineNeverChanges _ _ hh).2, fun m _ => run_of_halted m hh⟩
  | case4 n s hrun u hstep ih =>
    obtain ⟨hh, hsteps, hmore⟩ := ih h
    refine ⟨hh, (core_run_succ n hstep).trans hsteps, fun m hm => ?_⟩
    obtain ⟨k, rfl⟩ := Nat.exists_eq_add_of_le' (Nat.le_trans (Nat.succ_pos n) hm)
    rw [run_succ_of_next k (Bool.eq_false_of_not_eq_true hrun) hstep]
    exact hmore k (Nat.le_of_succ_le_succ hm)
  | case2 | case5 | case6 => cases h

/-- A run that runs out of its bound is still running after that many steps. -/
theorem run_outOfFuel {n : Nat} {s t : State} (h : run n s = .outOfFuel t) :
    t.halted = false ∧ core.run n s = .next t := by
  fun_induction run n s with
  | case2 s hrun =>
    cases h
    exact ⟨Bool.eq_false_of_not_eq_true hrun, rfl⟩
  | case4 n s hrun u hstep ih =>
    obtain ⟨hh, hsteps⟩ := ih h
    exact ⟨hh, (core_run_succ n hstep).trans hsteps⟩
  | case1 | case3 | case5 | case6 => cases h

/-- Settles O56, by induction along the run, for each of the two answers. -/
theorem runStopsExactlyWhenHalted : Obligations.RunStopsExactlyWhenHalted :=
  fun _ _ _ => ⟨run_halted, run_outOfFuel⟩

end Machine

namespace Assembler

/-! ### Digits -/

theorem decDigit_eq_some {c : Char} (hlo : 48 ≤ c.toNat) (hhi : c.toNat ≤ 57) : decDigit c = some (c.toNat - 48) :=
  if_pos ⟨hlo, hhi⟩

theorem decDigit_eq_none {c : Char} (h : c.toNat < 48 ∨ 57 < c.toNat) : decDigit c = none :=
  if_neg fun ⟨(hlo : 48 ≤ c.toNat), (hhi : c.toNat ≤ 57)⟩ => by omega

theorem octDigit_eq_none {c : Char} (h : c.toNat < 48 ∨ 57 < c.toNat) : octDigit c = none :=
  if_neg fun ⟨(hlo : 48 ≤ c.toNat), (hhi : c.toNat ≤ 55)⟩ => by omega

theorem hexDigit_eq_none {c : Char} (hdec : ¬ (48 ≤ c.toNat ∧ c.toNat ≤ 57)) (hupper : ¬ (65 ≤ c.toNat ∧ c.toNat ≤ 70))
    (hlower : ¬ (97 ≤ c.toNat ∧ c.toNat ≤ 102)) : hexDigit c = none :=
  (if_neg hdec).trans ((if_neg hupper).trans (if_neg hlower))

/-- The base-10 digit of value `n` is the character numbered `48 + n`. -/
theorem decDigit_eq_some_iff {c : Char} {n : Nat} : decDigit c = some n ↔ n < 10 ∧ c = Char.ofNat (48 + n) := by
  constructor
  · intro h
    by_cases hc : 48 ≤ c.toNat ∧ c.toNat ≤ 57
    · obtain ⟨hlo, hhi⟩ := hc
      rw [decDigit_eq_some hlo hhi] at h
      obtain rfl := Option.some.inj h
      exact ⟨by omega, by rw [Nat.add_sub_cancel' hlo, Char.ofNat_toNat]⟩
    · rw [decDigit_eq_none (by omega)] at h
      cases h
  · rintro ⟨hn, rfl⟩
    interval_cases n <;> rfl

theorem digitsFrom_eq_none {base : Nat} {digit : Char → Option Nat} {ds : List Char} {d : Char} (hd : d ∈ ds)
    (h : digit d = none) (acc : Nat) : digitsFrom base digit acc ds = none := by
  induction ds generalizing acc with
  | nil => cases hd
  | cons c cs ih =>
    rw [digitsFrom]
    rcases List.mem_cons.1 hd with rfl | hd
    · rw [h]
    · cases digit c with
      | none => rfl
      | some v => exact ih hd _

/-- Base-10 digits are read as their value, most significant first. -/
theorem digitsFrom_decDigit {ds : List Char} (h : ∀ d ∈ ds, 48 ≤ d.toNat ∧ d.toNat ≤ 57) (acc : Nat) :
    digitsFrom 10 decDigit acc ds = some (ds.foldl (fun acc d => acc * 10 + (d.toNat - 48)) acc) := by
  induction ds generalizing acc with
  | nil => rfl
  | cons c cs ih =>
    obtain ⟨hc, hcs⟩ := List.forall_mem_cons.1 h
    rw [digitsFrom, decDigit_eq_some hc.1 hc.2, List.foldl_cons, ← ih hcs]

/-! ### Register tokens -/

/-- R and a digit 0 to 7 are read; everything else is invalid (R98). -/
theorem registerToken_cases (token : List Char) :
    registerToken token = .error .invalidRegister ∨
    ∃ c d n, token = [c, d] ∧ (c = 'R' ∨ c = 'r') ∧ decDigit d = some n ∧ n < 8 ∧
      registerToken token = .ok (BitVec.ofNat 8 n) := by
  rcases token with - | ⟨c, - | ⟨d, - | ⟨e, rest⟩⟩⟩
  · exact .inl rfl
  · exact .inl rfl
  · by_cases hc : c = 'R' ∨ c = 'r'
    · rcases hd : decDigit d with - | n
      · exact .inl (by simp [registerToken, hd])
      · by_cases hn : n < 8
        · exact .inr ⟨c, d, n, rfl, hc, hd, hn, by simp [registerToken, hc, hd, hn]⟩
        · exact .inl (by simp [registerToken, hd, hn])
    · exact .inl (if_neg hc)
  · exact .inl rfl

theorem registerToken_of_digit {c : Char} {r : Byte} (hc : c = 'R' ∨ c = 'r') (hr : r.toNat < 8) :
    registerToken [c, Char.ofNat (48 + r.toNat)] = .ok r := by
  have hd : decDigit (Char.ofNat (48 + r.toNat)) = some r.toNat := decDigit_eq_some_iff.2 ⟨by omega, rfl⟩
  simp [registerToken, hc, hd, hr]

/-- Settles O57: a token of another length or letter is invalid, and the digit of a register token is 0 to 7. -/
theorem registerTokensAreR0ToR7 : Obligations.RegisterTokensAreR0ToR7 := by
  intro token
  refine ⟨fun r => ⟨fun h => ?_, ?_⟩, fun hno => ?_⟩
  · rcases registerToken_cases token with herr | ⟨c, d, n, rfl, hc, hd, hn, hok⟩
    · rw [herr] at h
      cases h
    · obtain rfl := Answer.ok.inj (hok.symm.trans h)
      obtain ⟨-, rfl⟩ := decDigit_eq_some_iff.1 hd
      have hval : (BitVec.ofNat 8 n).toNat = n := Nat.mod_eq_of_lt (by omega)
      rw [hval]
      refine ⟨hn, hc.imp ?_ ?_⟩ <;> exact fun hc => by rw [hc]
  · rintro ⟨hr, rfl | rfl⟩
    · exact registerToken_of_digit (.inl rfl) hr
    · exact registerToken_of_digit (.inr rfl) hr
  · exact (registerToken_cases token).resolve_right fun ⟨_, _, _, _, _, _, _, hok⟩ => hno _ hok

/-! ### Immediate tokens -/

theorem immediateToken_of_head_ne_zero {c : Char} (cs : List Char) (h : c ≠ '0') :
    immediateToken (c :: cs) = fitWord (digitsFrom 10 decDigit 0 (c :: cs)) := by
  unfold immediateToken
  split
  case h_8 => rfl
  case h_1 heq => cases heq
  all_goals exact absurd (List.cons.inj ‹_›).1 h

/-- A leading zero with no x or X after it: base 10 or base 8 (N14). -/
theorem immediateToken_leading_zero {c : Char} (cs : List Char) (hx : c ≠ 'x') (hX : c ≠ 'X') :
    immediateToken ('0' :: c :: cs) =
      openUnlessInvalid [fitWord (digitsFrom 10 decDigit 0 (c :: cs)), fitWord (digitsFrom 8 octDigit 0 (c :: cs))] := by
  unfold immediateToken
  split
  case h_7 heq => rw [(List.cons.inj heq).2]
  all_goals simp_all

theorem immediateToken_zero_x {ds : List Char} (h : ds ≠ []) :
    immediateToken ('0' :: 'x' :: ds) = fitWord (digitsFrom 16 hexDigit 0 ds) := by
  cases ds with
  | nil => exact absurd rfl h
  | cons d ds => rfl

theorem immediateToken_zero_X {ds : List Char} (h : ds ≠ []) :
    immediateToken ('0' :: 'X' :: ds) = openUnlessInvalid [fitWord (digitsFrom 16 hexDigit 0 ds)] := by
  cases ds with
  | nil => exact absurd rfl h
  | cons d ds => rfl

/-- Settles O58: such a token is read as base 10 alone, and its digits give the value. -/
theorem decimalTokensMustFitSixteenBits : Obligations.DecimalTokensMustFitSixteenBits := by
  intro c cs hc hdigits
  have hne : c ≠ '0' := by
    rintro rfl
    exact absurd hc (by decide)
  rw [immediateToken_of_head_ne_zero cs hne, digitsFrom_decDigit hdigits]
  rfl

/-- A token without `0x` or `0X` is read in base 10 or 8, and a character that is no base-10 digit spoils both. -/
theorem immediateToken_of_no_digit {token : List Char} {d : Char} (hmem : d ∈ token) (hd : d.toNat < 48 ∨ 57 < d.toNat)
    (hmark : ∀ rest : List Char, token ≠ '0' :: 'x' :: rest ∧ token ≠ '0' :: 'X' :: rest) :
    immediateToken token = .error .invalidImmediate := by
  rcases token with - | ⟨c, cs⟩
  · cases hmem
  by_cases hc : c = '0'
  · subst hc
    have hne : d ≠ '0' := by
      rintro rfl
      exact absurd hd (by decide)
    replace hmem : d ∈ cs := List.mem_of_ne_of_mem hne hmem
    rcases cs with - | ⟨c, cs⟩
    · cases hmem
    have hx : c ≠ 'x' := fun h => (hmark cs).1 (h ▸ rfl)
    have hX : c ≠ 'X' := fun h => (hmark cs).2 (h ▸ rfl)
    rw [immediateToken_leading_zero cs hx hX, digitsFrom_eq_none hmem (decDigit_eq_none hd),
      digitsFrom_eq_none hmem (octDigit_eq_none hd)]
    rfl
  · rw [immediateToken_of_head_ne_zero cs hc, digitsFrom_eq_none hmem (decDigit_eq_none hd)]
    rfl

/-- Settles O59: no base reads a token without `0x` or `0X`, and base 16 reads none with it. -/
theorem unparsableTokensAreInvalid : Obligations.UnparsableTokensAreInvalid := by
  refine ⟨rfl, fun token d => immediateToken_of_no_digit, ?_⟩
  rintro x digits (rfl | rfl) (rfl | ⟨d, hmem, hdec, hupper, hlower⟩)
  · rfl
  · rw [immediateToken_zero_x (List.ne_nil_of_mem hmem), digitsFrom_eq_none hmem (hexDigit_eq_none hdec hupper hlower)]
    rfl
  · rfl
  · rw [immediateToken_zero_X (List.ne_nil_of_mem hmem), digitsFrom_eq_none hmem (hexDigit_eq_none hdec hupper hlower)]
    rfl

end Assembler
end Sys2Proof

/-! ## Proofs of the family 40_system: NOP, HALT and the unrecognised opcodes, and how any instruction is fetched -/

namespace Sys2Proof

/-! ### The opcode fixes the length (R85) -/

/-- How many bytes an instruction of this shape has (R81); `Instr.map_length_shapeOf_opcode` ties it to `Instr.length`. -/
def Shape.length : Shape → Nat
  | .n _ => 1
  | .r _ => 2
  | .a _ => 3
  | .ri _ => 4

theorem Instr.map_length_shapeOf_opcode (i : Instr) : (shapeOf i.opcode).map Shape.length = some i.length := by
  cases i <;> rfl

theorem Instr.shapeOf_opcode_ne_none (i : Instr) : shapeOf i.opcode ≠ none := by
  intro h
  have hlen := i.map_length_shapeOf_opcode
  rw [h] at hlen
  cases hlen

theorem Instr.length_eq_of_opcode_eq {i j : Instr} (h : i.opcode = j.opcode) : i.length = j.length :=
  Option.some.inj (by rw [← i.map_length_shapeOf_opcode, ← j.map_length_shapeOf_opcode, h])

namespace Machine

/-! ### How an instruction is fetched -/

/-- The encoding of any instruction makes the next step run it (R89). -/
theorem runsAs_encode (i : Instr) : runsAs (encode i) i := by
  intro s hfetch
  rw [step_of_fetches hfetch, Instr.length_encode]

/-- Any instruction cut short by the end of memory is the fault `PcOutOfBounds` (R92): what stands whole at `pc` would
have the same opcode and so the same length, and an opcode with an instruction is recognised. -/
theorem fetchFaults_opcode (i : Instr) : fetchFaults i.opcode i.length := by
  rintro s ⟨hrun, hcut⟩
  rcases fetchInstr_cases s with ⟨j, hroom, hbytes, -⟩ | ⟨hpc, hshape, -⟩ | ⟨p, -, -, -, -, hfetch⟩
  · exfalso
    have hpos := j.length_pos
    rcases hcut with hout | ⟨-, hop, hshort⟩
    · omega
    · have hlen := Instr.length_eq_of_opcode_eq ((Memory.get_of_encoded hbytes).symm.trans hop)
      omega
  · exfalso
    rcases hcut with hout | ⟨-, hop, -⟩
    · omega
    · exact i.shapeOf_opcode_ne_none (hop ▸ hshape)
  · exact ⟨_, step_of_fetchInstr_raised hrun hfetch, rfl, rfl, sameStorage_raise_setPc _ _ _⟩

/-! ### The statements -/

/-- Settles O17: the value is in no row of the opcode map, so the fetch raises its fault after the opcode byte. -/
theorem unknownOpcodeHaltsAfterItsByte : Obligations.UnknownOpcodeHaltsAfterItsByte :=
  fun _ _ hfetch hlo hhi => step_of_unknown_opcode hfetch (shapeOf_eq_none hlo hhi)

/-- Settles O20: the fetch facts that hold of every instruction, the effect of NOP, and the zero fill of the
empty memory. -/
theorem nopOnlyAdvancesPc : Obligations.NopOnlyAdvancesPc :=
  ⟨runsAs_encode .nop, fetchFaults_opcode .nop, fun _ => Effect.nop.exec_eq, Memory.get_nil⟩

/-- Settles O21: the fetch facts that hold of every instruction, and the effect of HALT, after which the
machine is halted. -/
theorem haltStopsWithoutFault : Obligations.HaltStopsWithoutFault :=
  ⟨runsAs_encode .halt, fetchFaults_opcode .halt, fun s =>
    ⟨{ s with halted := true }, Effect.halt.exec_eq, rfl, rfl, rfl, sameStorage_refl s, step_halted rfl⟩⟩

end Machine
end Sys2Proof

/-! ## Proofs of the family 41_load_add: LOAD and ADD, and the arithmetic derived from ADD -/

namespace Sys2Proof.Machine

/-! ### The value of a register update -/

theorem addWord_toNat (x y : Word) : (addWord x y).toNat = (x.toNat + y.toNat) % 65536 :=
  BitVec.toNat_ofNat _ _

/-- NOT answers 0xFFFF minus the old value (R153). -/
theorem xor_ffff_toNat (x : Word) : (x ^^^ 0xFFFF).toNat = 0xFFFF - x.toNat := by
  rw [show (0xFFFF : Word) = BitVec.allOnes 16 from rfl, BitVec.xor_allOnes, BitVec.toNat_not]

theorem sameButRegs_refl (s : State) : sameButRegs s s :=
  ⟨rfl, rfl, fun _ => rfl, ⟨rfl, rfl⟩, ⟨rfl, rfl⟩, rfl⟩

theorem sameButRegs_setReg (s : State) (i : Fin 8) (v : Word) : sameButRegs s (s.setReg i v) :=
  ⟨rfl, rfl, fun _ => rfl, ⟨rfl, rfl⟩, ⟨rfl, rfl⟩, rfl⟩

theorem onlyRegChanged_setReg {r : Byte} (h : r.toNat < 8) (f : Word → Word) (s : State) :
    onlyRegChanged r f s (s.setReg ⟨r.toNat, h⟩ (f (s.reg ⟨r.toNat, h⟩))) := by
  constructor
  · intro j hj
    obtain rfl : j = ⟨r.toNat, h⟩ := Fin.ext hj
    exact State.reg_setReg_same _ _ _
  · exact fun j hj => State.reg_setReg_other _ _ _ fun heq => hj (congrArg Fin.val heq)

theorem onlyRegChanged_of_invalid {r : Byte} (h : 8 ≤ r.toNat) (f : Word → Word) (s : State) :
    onlyRegChanged r f s s :=
  ⟨fun j hj => absurd (hj ▸ j.isLt) (Nat.not_lt.2 h), fun _ _ => rfl⟩

/-- LOAD, ADD, AND, OR, XOR and NOT complete in every state and change at most the register they name (R22). -/
theorem exists_exec_of_registerUpdate {i : Instr} {r : Byte} {f : Word → Word} (hr : i.registerByte = some r)
    (hf : i.registerUpdate = some f) (s : State) :
    ∃ t, exec i s = .next t ∧ onlyRegChanged r f s t ∧ sameButRegs s t := by
  rcases Nat.lt_or_ge r.toNat 8 with h | h
  · exact ⟨_, (Effect.update hr hf h).exec_eq, onlyRegChanged_setReg h f s, sameButRegs_setReg s _ _⟩
  · exact ⟨s, exec_of_invalid_register hr h s, onlyRegChanged_of_invalid h f s, sameButRegs_refl s⟩

/-! ### Format RI in memory -/

theorem runsRI_of_encode {op : Byte} {mk : Byte → Word → Instr}
    (h : ∀ r w, encode (mk r w) = [op, r, loByte w, hiByte w]) : runsRI op mk := by
  intro r lo hi w hw
  obtain rfl : w = wordOfBytes lo hi := BitVec.eq_of_toNat_eq (hw.trans (wordOfBytes_toNat lo hi).symm)
  have hruns := runsAs_encode (mk r (wordOfBytes lo hi))
  rwa [h, loByte_wordOfBytes, hiByte_wordOfBytes] at hruns

/-! ### The statements -/

/-- Settles O22: the fetch facts of format RI, and LOAD as a register update whose value is the immediate. -/
theorem loadWritesTheImmediate : Obligations.LoadWritesTheImmediate :=
  ⟨runsRI_of_encode fun _ _ => rfl, fetchFaults_opcode (.load 0 0),
    fun _ _ s => exists_exec_of_registerUpdate rfl rfl s⟩

/-- Settles O23: the fetch facts of format RI, and ADD as a register update whose value is the sum modulo 2^16. -/
theorem addWrapsModulo65536 : Obligations.AddWrapsModulo65536 := by
  refine ⟨runsRI_of_encode fun _ _ => rfl, fetchFaults_opcode (.add 0 0), fun r imm s => ?_⟩
  obtain ⟨t, hexec, ⟨hval, hothers⟩, hframe⟩ := exists_exec_of_registerUpdate (i := .add r imm) rfl rfl s
  exact ⟨t, hexec, fun i hi => by rw [hval i hi, addWord_toNat], hothers, hframe⟩

/-- Settles O35: ADD gives the sum modulo 2^16 (R121) and NOT gives 0xFFFF minus the old value (R153), so the rest is
arithmetic of numbers below 65536. -/
theorem subtractionAndNegationByAdd : Obligations.SubtractionAndNegationByAdd := by
  obtain ⟨-, -, hadd⟩ := addWrapsModulo65536
  intro s r i hi
  have hx := (s.reg i).isLt
  constructor
  · intro k hk
    obtain ⟨t, hexec, hsum, -⟩ := hadd r (BitVec.ofNat 16 (65536 - k)) s
    refine ⟨t, hexec, ?_⟩
    rw [hsum i hi, BitVec.toNat_ofNat]
    omega
  · obtain ⟨t, hnot, ⟨hcompl, -⟩, -⟩ := exists_exec_of_registerUpdate (i := .not r) rfl rfl s
    obtain ⟨u, hexec, hsum, -⟩ := hadd r 1 t
    refine ⟨t, u, hnot, hexec, ?_⟩
    rw [hsum i hi, hcompl i hi, xor_ffff_toNat, show (1 : Word).toNat = 1 from rfl]
    omega

end Sys2Proof.Machine

/-! ## Proofs of the family 42_store: STORE -/

namespace Sys2Proof.Machine

/-- A fault that an instruction raises after its fetch changes no storage (R203, R204). -/
theorem sameStorage_raise (s : State) (f : FaultRecord) : sameStorage s (s.raise f) :=
  sameStorage_raise_setPc s s.pc f

/-- A STORE at the last address has no room for the high byte, so it faults (R130). -/
theorem exec_store_at_end {r : Byte} {addr : Word} (hr : r.toNat < 8) (haddr : addr.toNat = 0xFFFF) (s : State) :
    exec (.store r addr) s = .next (s.raise (.storeOutOfBounds addr)) := by
  have hshort : Config.memSize < addr.toNat + 2 := by rw [haddr]; decide
  exact (Effect.storeFault hr hshort).exec_eq

/-- A STORE with room for both bytes writes the word the register holds (R130). -/
theorem exec_store_in_bounds {r : Byte} {addr : Word} {i : Fin 8} (hi : i.val = r.toNat) (haddr : addr.toNat ≤ 0xFFFE)
    (s : State) : exec (.store r addr) s = .next (s.write16 addr.toNat (s.reg i)) := by
  have hr : r.toNat < 8 := hi ▸ i.isLt
  obtain rfl : i = ⟨r.toNat, hr⟩ := Fin.ext hi
  exact (Effect.store hr (Nat.add_le_add_right haddr 2)).exec_eq

/-- Settles O26: the fetch facts of format RI, then one clause for each way STORE can end; what the word write does to
memory is O10. -/
theorem storeWritesBothBytesOrFaults : Obligations.StoreWritesBothBytesOrFaults := by
  refine ⟨runsRI_of_encode fun _ _ => rfl, fetchFaults_opcode (.store 0 0), fun r addr s hr => ?_,
    fun r addr s hr haddr => ?_, fun r addr s i hi haddr hm => ?_⟩
  · exact exec_of_invalid_register rfl hr s
  · exact ⟨_, exec_store_at_end hr haddr s, rfl, rfl, rfl, sameStorage_raise s _⟩
  · have hroom : addr.toNat + 1 < Config.memSize := Nat.add_le_add_right haddr 2
    obtain ⟨-, hword⟩ := memWriteWritesExactlyItsBytes s.mem hm
    obtain ⟨hlo, hhi, hframe, -, -⟩ := hword addr.toNat (s.reg i) hroom
    exact ⟨_, exec_store_in_bounds hi haddr s, hlo, hhi, hframe, fun _ => rfl, rfl, rfl, ⟨rfl, rfl⟩, ⟨rfl, rfl⟩, rfl⟩

end Sys2Proof.Machine

/-! ## Proofs of the family 43_jump: JMP and JZ -/

namespace Sys2Proof.Machine

theorem sameButPc_setPc (s : State) (p : Nat) : sameButPc s (s.setPc p) :=
  ⟨fun _ => rfl, rfl, fun _ => rfl, ⟨rfl, rfl⟩, ⟨rfl, rfl⟩, rfl⟩

theorem runsA_of_encode {op : Byte} {mk : Word → Instr} (h : ∀ w, encode (mk w) = [op, loByte w, hiByte w]) :
    runsA op mk := by
  intro lo hi w hw
  obtain rfl : w = wordOfBytes lo hi := BitVec.eq_of_toNat_eq (hw.trans (wordOfBytes_toNat lo hi).symm)
  have hruns := runsAs_encode (mk (wordOfBytes lo hi))
  rwa [h, loByte_wordOfBytes, hiByte_wordOfBytes] at hruns

/-- A JZ is taken when its register holds zero (R141). -/
theorem exec_jz_of_zero {r : Byte} {addr : Word} {s : State} {i : Fin 8} (hi : i.val = r.toNat)
    (hzero : (s.reg i).toNat = 0) : exec (.jz r addr) s = .next (s.setPc addr.toNat) := by
  have hr : r.toNat < 8 := hi ▸ i.isLt
  obtain rfl : i = ⟨r.toNat, hr⟩ := Fin.ext hi
  exact (Effect.jzTaken hr (BitVec.eq_of_toNat_eq hzero)).exec_eq

/-- A JZ is not taken when one of the 16 bits of its register is set (R141). -/
theorem exec_jz_of_ne_zero {r : Byte} {addr : Word} {s : State} {i : Fin 8} (hi : i.val = r.toNat)
    (hne : (s.reg i).toNat ≠ 0) : exec (.jz r addr) s = .next s := by
  have hr : r.toNat < 8 := hi ▸ i.isLt
  obtain rfl : i = ⟨r.toNat, hr⟩ := Fin.ext hi
  exact (Effect.jzNotTaken hr fun hzero => hne (congrArg BitVec.toNat hzero)).exec_eq

/-- Settles O27: the fetch facts of format A, and the effect of JMP, whose bounds check no 16-bit operand fails (R142). -/
theorem jmpTransfersToTheOperand : Obligations.JmpTransfersToTheOperand :=
  ⟨runsA_of_encode fun _ => rfl, fetchFaults_opcode (.jmp 0),
    fun addr s => ⟨s.setPc addr.toNat, Effect.jmp.exec_eq, rfl, sameButPc_setPc s _⟩⟩

/-- Settles O28: the fetch facts of format RI, then one clause for each way JZ can end: taken, not taken, and a
register byte that names no register. -/
theorem jzTransfersOnAZeroRegister : Obligations.JzTransfersOnAZeroRegister := by
  refine ⟨runsRI_of_encode fun _ _ => rfl, fetchFaults_opcode (.jz 0 0), fun r addr s i hi hzero => ?_,
    fun r addr s i hi hne => ?_, fun r addr s hr => ?_⟩
  · exact ⟨s.setPc addr.toNat, exec_jz_of_zero hi hzero, rfl, sameButPc_setPc s _⟩
  · exact exec_jz_of_ne_zero hi hne
  · exact exec_of_invalid_register rfl hr s

end Sys2Proof.Machine

/-! ## Proofs of the family 44_logic: AND, OR, XOR and NOT -/

namespace Sys2Proof.Machine

/-- A register update that combines each bit with the immediate's bit by `g` does so in the named register and changes
nothing else. -/
theorem exists_exec_of_bitwise_update {i : Instr} {r : Byte} {imm : Word} {f : Word → Word} {g : Bool → Bool → Bool}
    (hr : i.registerByte = some r) (hf : i.registerUpdate = some f)
    (hbit : ∀ (x : Word) (k : Nat), (f x).getLsbD k = g (x.getLsbD k) (imm.getLsbD k)) (s : State) :
    ∃ t, exec i s = .next t ∧ sameRegsBut r s t ∧ sameButRegs s t ∧
      ∀ (j : Fin 8) (k : Nat), j.val = r.toNat → (t.reg j).getLsbD k = g ((s.reg j).getLsbD k) (imm.getLsbD k) := by
  obtain ⟨t, hexec, ⟨hval, hothers⟩, hframe⟩ := exists_exec_of_registerUpdate hr hf s
  exact ⟨t, hexec, hothers, hframe, fun j k hj => by rw [hval j hj, hbit]⟩

/-- Settles O24: the fetch facts of format RI, and each of the three as a register update that acts on the bits. -/
theorem andOrXorActOnEachBit : Obligations.AndOrXorActOnEachBit := by
  refine ⟨⟨runsRI_of_encode fun _ _ => rfl, fetchFaults_opcode (.and 0 0), runsRI_of_encode fun _ _ => rfl,
    fetchFaults_opcode (.or 0 0), runsRI_of_encode fun _ _ => rfl, fetchFaults_opcode (.xor 0 0)⟩,
    fun r imm s => ⟨?_, ?_, ?_⟩⟩
  · exact exists_exec_of_bitwise_update (i := .and r imm) rfl rfl (fun _ _ => BitVec.getLsbD_and) s
  · exact exists_exec_of_bitwise_update (i := .or r imm) rfl rfl (fun _ _ => BitVec.getLsbD_or) s
  · exact exists_exec_of_bitwise_update (i := .xor r imm) rfl rfl (fun _ _ => BitVec.getLsbD_xor) s

/-- Settles O25: the fetch facts of format R, and NOT as a register update whose value is 0xFFFF minus the old one. -/
theorem notComplementsTheRegister : Obligations.NotComplementsTheRegister := by
  refine ⟨fun r => runsAs_encode (.not r), fetchFaults_opcode (.not 0), fun r s => ?_⟩
  obtain ⟨t, hexec, ⟨hval, hothers⟩, hframe⟩ := exists_exec_of_registerUpdate (i := .not r) rfl rfl s
  exact ⟨t, hexec, fun i hi => by rw [hval i hi, xor_ffff_toNat], hothers, hframe⟩

end Sys2Proof.Machine

/-! ## Proofs of the family 45_call_ret: CALL and RET -/

namespace Sys2Proof

theorem Instr.opcode_eq_call_iff {i : Instr} : i.opcode = 0x0A ↔ ∃ addr, i = .call addr := by
  cases i <;> simp [Instr.opcode]

namespace Machine

/-! ### One CALL -/

/-- A CALL that records no fault takes `sp` down by 2 (R160). -/
theorem Effect.sp_of_call {s t : State} {addr : Word} (h : Effect s (.call addr) t) (hfault : t.fault = none) :
    t.sp + 2 = s.sp := by
  cases h with
  | call hlo => exact Nat.sub_add_cancel hlo
  | callFault => cases hfault
  | update _ hf => cases hf
  | invalid hr => cases hr

/-- A step that starts at the opcode of CALL and records no fault takes `sp` down by 2. -/
theorem sp_of_call_step {s t : State} (hrun : s.halted = false) (hop : s.mem.get s.pc = 0x0A) (hstep : step s = .next t)
    (hfault : t.fault = none) : t.sp + 2 = s.sp := by
  rcases step_cases hstep with ⟨hhalt, -⟩ | ⟨-, i, -, hbytes, hexec⟩ | ⟨-, -, -, rfl⟩ | ⟨-, p, -, -, -, -, rfl⟩
  · rw [hrun] at hhalt
    cases hhalt
  · obtain ⟨addr, rfl⟩ := Instr.opcode_eq_call_iff.1 ((Memory.get_of_encoded hbytes).symm.trans hop)
    exact (exec_eq_next_iff.1 hexec).sp_of_call hfault
  · cases hfault
  · cases hfault

/-! ### The statements -/

/-- Settles O29: the fetch facts of format A, then one clause for each way CALL can end; what the push does to memory
is O10. -/
theorem callPushesThePostFetchPc : Obligations.CallPushesThePostFetchPc := by
  refine ⟨runsA_of_encode fun _ => rfl, fetchFaults_opcode (.call 0), fun addr s hlo => ?_,
    fun addr s hlo hhi hm => ?_, fun addr s hout => ?_⟩
  · exact ⟨_, (Effect.callFault hlo).exec_eq, rfl, rfl, rfl, sameStorage_raise s _⟩
  · have hhigh : s.sp - 1 = s.sp - 2 + 1 := by omega
    obtain ⟨-, hword⟩ := memWriteWritesExactlyItsBytes s.mem hm
    have hroom : s.sp - 2 + 1 < 65536 := by omega
    obtain ⟨hlow, htop, hframe, -, -⟩ := hword (s.sp - 2) (BitVec.ofNat 16 s.pc) hroom
    rw [BitVec.toNat_ofNat] at hlow htop
    exact ⟨_, (Effect.call hlo hhi).exec_eq, rfl, rfl, hlow, hhigh ▸ htop, hframe, fun _ => rfl, ⟨rfl, rfl⟩,
      ⟨rfl, rfl⟩, rfl⟩
  · rw [exec, execCall, push16_outside _ hout, Result.andThen_stop]

/-- Settles O30: the fetch facts of format N, then one clause for each way RET can end. -/
theorem retPopsThePc : Obligations.RetPopsThePc := by
  refine ⟨runsAs_encode .ret, fetchFaults_opcode .ret, fun s hout => ?_, fun s hroom => ?_⟩
  · have hover : Config.memSize < s.sp + 2 := Nat.add_lt_add_right hout 2
    exact ⟨_, (Effect.retFault hover).exec_eq, rfl, rfl, rfl, sameStorage_raise s _⟩
  · have hfits : s.sp + 2 ≤ Config.memSize := Nat.add_le_add_right hroom 2
    exact ⟨_, (Effect.ret hfits).exec_eq, Memory.get16_toNat _ _, rfl, fun _ => rfl, fun _ => rfl, ⟨rfl, rfl⟩,
      ⟨rfl, rfl⟩, rfl⟩

/-- Settles O49, by induction on the number of CALLs. -/
theorem consecutiveCallsDecrementSp : Obligations.ConsecutiveCallsDecrementSp := by
  intro n run hcalls
  induction n with
  | zero => rfl
  | succ n ih =>
    have hbefore := ih fun k hk => hcalls k (Nat.lt_succ_of_lt hk)
    obtain ⟨hrun, hop, hstep, hfault⟩ := hcalls n (Nat.lt_succ_self n)
    have hlast := sp_of_call_step hrun hop hstep hfault
    omega

/-- Settles O50: the word RET pops is the one the CALL pushed, and `sp` has come back to where it was. -/
theorem callThenRetResumesAfterTheCall : Obligations.CallThenRetResumesAfterTheCall := by
  intro s t u addr hm hlo hhi hcall hsp hlow htop
  obtain rfl := Host.Outcome.next.inj ((Effect.call hlo hhi).exec_eq.symm.trans hcall)
  have hnew : u.sp = s.sp - 2 := hsp
  have hroom : s.sp - 2 < 65536 := by omega
  have hword : u.mem.get16 u.sp = BitVec.ofNat 16 s.pc := by
    rw [Memory.get16, hlow, htop]
    exact Memory.get16_set16_same hm hroom _
  have hfits : u.sp + 2 ≤ Config.memSize := by rwa [hnew, Nat.sub_add_cancel hlo]
  refine ⟨_, (Effect.ret hfits).exec_eq, ?_, ?_⟩
  · rw [State.setPc_sp, hnew, Nat.sub_add_cancel hlo]
  · rw [State.setPc_pc, hword, BitVec.toNat_ofNat]

end Machine
end Sys2Proof

/-! ## Proofs of the family 46_io: IN and OUT -/

namespace Sys2Proof.Machine

/-- An OUT to the implemented port emits the low byte of its register (R183). -/
theorem exec_out_ioPort {r : Byte} {i : Fin 8} (hi : i.val = r.toNat) (s : State) :
    exec (.out r Config.ioPort) s = .next (s.emit (loByte (s.reg i))) := by
  have hr : r.toNat < 8 := hi ▸ i.isLt
  obtain rfl : i = ⟨r.toNat, hr⟩ := Fin.ext hi
  exact (Effect.out hr).exec_eq

/-- Settles O31: the fetch facts of format RI, and the effect of IN, whose byte is the one the supply gives next. -/
theorem inReadsTheNextSuppliedByte : Obligations.InReadsTheNextSuppliedByte := by
  refine ⟨runsRI_of_encode fun _ _ => rfl, fetchFaults_opcode (.inp 0 0), fun r s hr => ?_, fun r s hr => ?_⟩
  · obtain ⟨hval, hothers⟩ := onlyRegChanged_setReg hr (fun _ => s.nextInput.setWidth 16) s.consumeInput
    have hextend : (s.nextInput.setWidth 16).toNat = s.nextInput.toNat :=
      BitVec.toNat_setWidth_of_le (by decide)
    exact ⟨_, s.nextInput, (Effect.inp hr).exec_eq, fun _ c => State.nextInput_of_listed s c,
      State.nextInput_of_empty s, fun i hi => by rw [hval i hi, hextend], hothers, rfl, rfl, rfl, rfl, rfl,
      fun _ => rfl, rfl, rfl⟩
  · exact exec_of_invalid_register rfl hr s

/-- Settles O32: the fetch facts of format RI, and the effect of OUT, which appends one byte to the trace. -/
theorem outEmitsTheLowByte : Obligations.OutEmitsTheLowByte := by
  refine ⟨runsRI_of_encode fun _ _ => rfl, fetchFaults_opcode (.out 0 0), fun r s i hi => ?_, fun r s hr => ?_⟩
  · exact ⟨_, _, exec_out_ioPort hi s, loByte_toNat _, rfl, ⟨rfl, rfl⟩, rfl, fun _ => rfl, rfl, fun _ => rfl, rfl, rfl⟩
  · exact exec_of_invalid_register rfl hr s

/-- Settles O33: on such a port neither instruction has an effect, and the two operand bytes in memory spell such a
port. -/
theorem otherPortsHaveNoEffect : Obligations.OtherPortsHaveNoEffect := by
  refine ⟨fun r port s hp => ⟨(Effect.inpOther hp).exec_eq, (Effect.outOther hp).exec_eq⟩,
    fun r lo hi s hne hfetch => ?_⟩
  have hword := wordOfBytes_toNat lo hi
  have hport : wordOfBytes lo hi ≠ Config.ioPort := fun heq => hne (hword.symm.trans (congrArg BitVec.toNat heq))
  obtain ⟨hrunsIn, -⟩ := inReadsTheNextSuppliedByte
  obtain ⟨hrunsOut, -⟩ := outEmitsTheLowByte
  rcases hfetch with hin | hout
  · exact (hrunsIn r lo hi _ hword s hin).trans (Effect.inpOther hport).exec_eq
  · exact (hrunsOut r lo hi _ hword s hout).trans (Effect.outOther hport).exec_eq

end Sys2Proof.Machine

/-! ## Proofs of the family 60_exceptions: what is raised, by which instruction, and what it leaves -/

namespace Sys2Proof.Machine

/-- Settles O18: a raise changes the record and the halt flag alone, and a halted machine stays as it is. -/
theorem raiseRecordsTheFaultAndHalts : Obligations.RaiseRecordsTheFaultAndHalts := fun s f =>
  ⟨rfl, rfl, rfl, sameStorage_raise s f, fun _ k => Result.andThen_raised _ k, step_halted rfl⟩

/-- The second column of R202: an effect leaves the fault record, or raises one fault from the state it starts in. -/
theorem Effect.fault_cases {s t : State} {i : Instr} (h : Effect s i t) :
    t.fault = s.fault ∨
    (∃ (r : Byte) (addr : Word), i = .store r addr ∧ r.toNat < 8 ∧ addr.toNat = 0xFFFF ∧
      t = s.raise (.storeOutOfBounds addr)) ∨
    (∃ addr : Word, i = .call addr ∧ s.sp < 2 ∧ t = s.raise (.stackOverflow s.sp)) ∨
    (i = .ret ∧ 65534 < s.sp ∧ t = s.raise (.stackUnderflow s.sp)) := by
  have hm : Config.memSize = 65536 := rfl
  cases h with
  | @storeFault r addr hr hb =>
    have haddr : addr.toNat = 0xFFFF := by have := addr.isLt; omega
    exact .inr (.inl ⟨r, addr, rfl, hr, haddr, rfl⟩)
  | @callFault addr hsp => exact .inr (.inr (.inl ⟨addr, rfl, hsp, rfl⟩))
  | retFault hsp => exact .inr (.inr (.inr ⟨rfl, by omega, rfl⟩))
  | _ => exact .inl rfl

/-- Settles O40: with no record before it, an effect that ends with one has raised it. -/
theorem faultsEachInstructionCanRaise : Obligations.FaultsEachInstructionCanRaise := by
  intro i s t f hnone hexec hf
  rcases (exec_eq_next_iff.1 hexec).fault_cases with
    hsame | ⟨r, addr, rfl, hr, haddr, rfl⟩ | ⟨addr, rfl, hsp, rfl⟩ | ⟨rfl, hsp, rfl⟩
  · rw [hsame, hnone] at hf
    cases hf
  · exact .inl ⟨r, addr, rfl, hr, haddr, (Option.some.inj hf).symm⟩
  · exact .inr (.inl ⟨addr, rfl, hsp, (Option.some.inj hf).symm⟩)
  · exact .inr (.inr ⟨rfl, hsp, (Option.some.inj hf).symm⟩)

/-- What R201 and R204 say of a fault that a step from `s` raises with the program counter at `p`; `step_fault_cases`
ties it to `step`. -/
def FaultRecord.raisedFrom (f : FaultRecord) (s : State) (p : Nat) : Prop :=
  match f with
  | .pcOutOfBounds q => q = p ∧ 65534 < q ∧ (p = s.pc ∨ p = s.pc + 1 ∨ p = s.pc + 2)
  | .unknownOpcode op a => op = s.mem.get s.pc ∧ a = s.pc ∧ p = s.pc + 1
  | .storeOutOfBounds addr => s.mem.get s.pc = 0x03 ∧ addr = 0xFFFF ∧ p = s.pc + 4
  | .jumpOutOfBounds _ _ => False
  | .stackOverflow x => s.mem.get s.pc = 0x0A ∧ x = s.sp ∧ x < 2 ∧ p = s.pc + 3
  | .stackUnderflow x => s.mem.get s.pc = 0x0B ∧ x = s.sp ∧ 65534 < x ∧ p = s.pc + 1

/-- A step leaves the fault record, or moves `pc` past what it fetched and raises one fault there. -/
theorem step_fault_cases {s t : State} (h : step s = .next t) :
    t.fault = s.fault ∨ ∃ (p : Nat) (f : FaultRecord), t = (s.setPc p).raise f ∧ f.raisedFrom s p := by
  rcases step_cases h with
    ⟨-, rfl⟩ | ⟨-, i, -, hbytes, hexec⟩ | ⟨-, -, -, rfl⟩ | ⟨-, p, hlo, hpc, hlen, -, rfl⟩
  · exact .inl rfl
  · have hop := Memory.get_of_encoded hbytes
    rcases (exec_eq_next_iff.1 hexec).fault_cases with
      hsame | ⟨r, addr, rfl, -, haddr, rfl⟩ | ⟨addr, rfl, hsp, rfl⟩ | ⟨rfl, hsp, rfl⟩
    · exact .inl hsame
    · exact .inr ⟨_, _, rfl, hop, BitVec.eq_of_toNat_eq haddr, rfl⟩
    · exact .inr ⟨_, _, rfl, hop, rfl, hsp, rfl⟩
    · exact .inr ⟨_, _, rfl, hop, rfl, hsp, rfl⟩
  · exact .inr ⟨_, _, rfl, rfl, rfl, rfl⟩
  · have hfetched : p = s.pc ∨ p = s.pc + 1 ∨ p = s.pc + 2 := by omega
    exact .inr ⟨_, _, rfl, rfl, hlo, hfetched⟩

/-- Settles O39: with no record before it, the step has raised the fault, and a raise changes `pc` and the status
alone. -/
theorem faultsArePrecise : Obligations.FaultsArePrecise := by
  intro s t f _ hnone hstep hf
  rcases step_fault_cases hstep with hsame | ⟨p, g, rfl, hraised⟩
  · rw [hsame, hnone] at hf
    cases hf
  · obtain rfl : g = f := Option.some.inj hf
    refine ⟨rfl, sameStorage_raise_setPc s p g, ?_⟩
    cases g <;> exact hraised

/-- Settles O41: no step raises this kind, so a record of it was there before. -/
theorem jumpOutOfBoundsIsNeverRaised : Obligations.JumpOutOfBoundsIsNeverRaised := by
  intro s t op addr hstep hf
  rcases step_fault_cases hstep with hsame | ⟨p, g, rfl, hraised⟩
  · exact hsame.symm.trans hf
  · obtain rfl : g = .jumpOutOfBounds op addr := Option.some.inj hf
    exact hraised.elim

end Sys2Proof.Machine

/-! ## Proofs of the family 70_reset_and_hazards: reset, load, and the order of the host's operations -/

namespace Sys2Proof.Machine

/-! ### Reset (R230) -/

/-- Settles O51: Reset gives the reset state but for the input supply, which the statement does not name. -/
theorem resetPutsEveryPartAtItsValue : Obligations.ResetPutsEveryPartAtItsValue :=
  fun _ => resetValues

theorem State.resetOp_inv (s : State) : s.resetOp.Inv :=
  have hreset : State.reset.Inv := resetIsLegal
  State.inv_of_fault_none rfl hreset.memory hreset.pcBound hreset.spBound hreset.spEven

/-! ### Load (R232, R233) -/

theorem Memory.getElem_bytes (m : Memory) (a : Nat) {n k : Nat} (h : k < (m.bytes a n).length) :
    (m.bytes a n)[k] = m.get (a + k) := by
  induction n generalizing a k with
  | zero => cases h
  | succ n ih =>
    cases k with
    | zero => rfl
    | succ k =>
      simp only [Memory.bytes_succ, List.getElem_cons_succ, ih]
      rw [Nat.add_right_comm, Nat.add_assoc]

/-- A sequence of bytes that fits is read back byte by byte. -/
theorem Memory.get_setBytes {m : Memory} (hm : m.wf = true) {a : Nat} {bs : List Byte}
    (hfit : a + bs.length ≤ Config.memSize) {k : Nat} (hk : k < bs.length) : (m.setBytes a bs).get (a + k) = bs[k] := by
  have hbytes : (m.setBytes a bs).bytes a bs.length = bs := by
    simpa only [List.append_nil] using Memory.bytes_setBytes_append hm [] hfit
  rw [← Memory.getElem_bytes _ a (by rwa [Memory.bytes_length])]
  simp only [hbytes]

theorem load_of_fits {image : List Byte} (h : image.length ≤ Config.memSize) (s : State) :
    load image s = .ok { s with mem := s.mem.setBytes 0 image } :=
  if_neg (Nat.not_lt.2 h)

theorem load_of_too_long {image : List Byte} (h : Config.memSize < image.length) (s : State) :
    load image s = .loadError :=
  if_pos h

/-- Settles O52, by the laws of writing a sequence of bytes. -/
theorem loadWritesTheImage : Obligations.LoadWritesTheImage := by
  intro image s hm hlen
  refine ⟨_, load_of_fits hlen s, fun k hk => ?_, fun k hk => ?_, Memory.setBytes_wf hm 0 image,
    rfl, fun _ => rfl, rfl, ⟨rfl, rfl⟩, ⟨rfl, rfl⟩, rfl⟩
  · have hread := Memory.get_setBytes hm (a := 0) ((Nat.zero_add _).trans_le hlen) hk
    rwa [Nat.zero_add] at hread
  · exact Memory.get_setBytes_other s.mem 0 image (.inr ((Nat.zero_add _).trans_le hk))

/-! ### The host's sequence of operations (R236) -/

theorem Driver.reset_of_ne_running {p : Phase} (h : p ≠ .running) (s : State) :
    Driver.reset ⟨p, s⟩ = .done ⟨.ready, s.resetOp⟩ := by
  cases p with
  | running => exact absurd rfl h
  | _ => rfl

theorem Driver.load_ready_of_ok {image : List Byte} {s t : State} (h : Machine.load image s = .ok t) :
    Driver.load image ⟨.ready, s⟩ = .done ⟨.loaded, t⟩ := by
  simp only [Driver.load, h]

theorem Driver.load_ready_of_loadError {image : List Byte} {s : State} (h : Machine.load image s = .loadError) :
    Driver.load image ⟨.ready, s⟩ = .loadError ⟨.loadFailed, s⟩ := by
  simp only [Driver.load, h]

/-- Settles O53: the driver keeps its core when the load is rejected. -/
theorem tooLongImageIsRejected : Obligations.TooLongImageIsRejected := by
  intro image s hlen
  have hload := load_of_too_long hlen s
  exact ⟨hload, _, Driver.load_ready_of_loadError hload, rfl⟩

/-- Settles O54: reset gives every part its value, load then writes the image alone, and the beginning of run sets the
supply alone. -/
theorem launchState : Obligations.LaunchState := by
  intro p s image supply hp hlen
  obtain ⟨hpc, hregs, hsp, hmem, hhalted, hfault, houtput⟩ := resetPutsEveryPartAtItsValue s
  have hinv := s.resetOp_inv
  obtain ⟨t, hload, himage, hrest, hwf, hpc', hregs', hsp', ⟨hhalted', hfault'⟩, -, houtput'⟩ :=
    loadWritesTheImage image s.resetOp hinv.memory hlen
  refine ⟨_, _, ⟨.running, { t with input := supply }⟩, Driver.reset_of_ne_running hp s, Driver.load_ready_of_ok hload,
    rfl, rfl, hpc'.trans hpc, fun i => (hregs' i).trans (hregs i), hsp'.trans hsp, himage,
    fun k hk => (hrest k hk).trans (hmem k), hhalted'.trans hhalted, hfault'.trans hfault, houtput'.trans houtput, rfl,
    ?_⟩
  exact State.inv_of_fault_none (hfault'.trans hfault) hwf (hpc'.trans_le hinv.pcBound) (hsp'.trans_le hinv.spBound)
    (hsp' ▸ hinv.spEven)

section
variable {d : Driver}

theorem Driver.load_refused (image : List Byte) (h : d.phase ≠ .ready) :
    ∃ w : OutOfSequence, Driver.load image d = .refused w := by
  obtain ⟨p, s⟩ := d
  cases p with
  | ready => exact absurd rfl h
  | _ => exact ⟨_, rfl⟩

theorem Driver.begin_refused (supply : List Byte) (h : d.phase ≠ .loaded) :
    ∃ w : OutOfSequence, Driver.begin supply d = .refused w := by
  obtain ⟨p, s⟩ := d
  cases p with
  | loaded => exact absurd rfl h
  | _ => exact ⟨_, rfl⟩

theorem Driver.step_refused (h : d.phase ≠ .running) : ∃ w : OutOfSequence, Driver.step d = .refused w := by
  obtain ⟨p, s⟩ := d
  cases p with
  | running => exact absurd rfl h
  | _ => exact ⟨_, rfl⟩

theorem Driver.reset_refused (h : d.phase = .running) : Driver.reset d = .refused .resetDuringRun := by
  simp only [Driver.reset, h]

end

/-- Settles O55, by the one phase each operation is defined in, or for reset the one it is refused in. -/
theorem outOfSequenceOperationsAreRefused : Obligations.OutOfSequenceOperationsAreRefused :=
  fun _ image supply =>
    ⟨Driver.load_refused image, Driver.begin_refused supply, Driver.step_refused, fun h => ⟨_, Driver.reset_refused h⟩⟩

end Sys2Proof.Machine
